-- ==== Sys2Proof/Word.lean ====
section
/-! DEFINITION. The value types of the core (00_scope.md R12): words, bytes, four-word values, tweaks. -/

namespace Sys2Proof

/-- `Word64`: an unsigned 64-bit integer (R12). -/
abbrev Word64 := BitVec 64

/-- One byte of a message, a block or the lookahead buffer. -/
abbrev Byte := BitVec 8

/-- `Bytes(32)`: one block of 32 bytes, indexed from 0 (R12). -/
abbrev Bytes32 := Vector Byte 32

/-- `Word256 = [w0, w1, w2, w3]`, with `w0` the least significant word (R12). -/
structure Word256 where
  w0 : Word64
  w1 : Word64
  w2 : Word64
  w3 : Word64
  deriving DecidableEq, Repr

/-- `Tweak128 = [t0, t1]`, also read as the 128-bit value `t1 : t0` (R12, 10_state.md R34). -/
structure Tweak128 where
  t0 : Word64
  t1 : Word64
  deriving DecidableEq, Repr

end Sys2Proof
end

