-- ==== Sys2Proof/Syntax.lean ====
section
/-! DEFINITION. The six commands of spec/opcode_table.json (30_encoding.md R63). -/

namespace Sys2Proof

/-- One constructor per row of the opcode table.  `len` is the byte count LEN and `fin` the final request FIN of
the command word (R62); every other operand is an implied register. -/
inductive Instr where
  /-- TF_ENC: encrypt BLK under KEY and TWK (40_threefish.md R82). -/
  | tfEnc
  /-- UBI_BLOCK: one UBI step on KEY, TWK and the first `len` bytes of BLK (41_ubi.md R89). -/
  | ubiBlock (len : Nat) (fin : Bool)
  /-- CTX_INIT: a new streaming context from the constant IV (42_skein_context.md R100). -/
  | ctxInit
  /-- CTX_INIT_CFG: a new streaming context from the configuration pass (42_skein_context.md R101). -/
  | ctxInitCfg
  /-- CTX_UPDATE: absorb `len` bytes of DIN (42_skein_context.md R102). -/
  | ctxUpdate (len : Nat)
  /-- CTX_FINAL: finish the message and return the digest (42_skein_context.md R103). -/
  | ctxFinal
  deriving DecidableEq, Repr

end Sys2Proof
end

