-- ==== Sys2Proof/WellFormed.lean ====
section
/-! DEFINITION. Which instruction terms have a legal command word (30_encoding.md R64). -/

namespace Sys2Proof

/-- LEN is 0 to 32 for UBI_BLOCK and 0 to 8 for CTX_UPDATE (R61, R64); the other commands have no free field. -/
def Instr.wf : Instr → Bool
  | .tfEnc => true
  | .ubiBlock len _ => decide (len ≤ 32)
  | .ctxInit => true
  | .ctxInitCfg => true
  | .ctxUpdate len => decide (len ≤ 8)
  | .ctxFinal => true

end Sys2Proof
end

