-- ==== Sys2Proof/Decode.lean ====
section
/-! DEFINITION. The command word (30_encoding.md R60 to R65): its fields, the legality check, the decoder, and the
encoder written from the same table. -/

namespace Sys2Proof

/-- OP = w[7:0] (R61). -/
def opField (w : Word64) : BitVec 8 := w.extractLsb' 0 8

/-- LEN = w[13:8], an unsigned byte count (R61, R62). -/
def lenField (w : Word64) : BitVec 6 := w.extractLsb' 8 6

/-- FIN = w[16] (R61). -/
def finField (w : Word64) : Bool := w.getLsbD 16

/-- RSV = w[63:17] : w[15:14], 49 bits (R61). -/
def rsvField (w : Word64) : BitVec 49 := w.extractLsb' 17 47 ++ w.extractLsb' 14 2

/-- `legal(w)` as R64 writes it. -/
def legal (w : Word64) : Bool :=
  rsvField w == 0#49 &&
    ((((opField w == 0x01#8) || (opField w == 0x10#8) || (opField w == 0x11#8) || (opField w == 0x13#8))
        && lenField w == 0#6 && !finField w)
      || (opField w == 0x02#8 && decide ((lenField w).toNat ≤ 32))
      || (opField w == 0x12#8 && decide ((lenField w).toNat ≤ 8) && !finField w))

/-- Why a word is illegal: the four grounds of 60_exceptions.md R107 (30_encoding.md R65). -/
inductive DecodeError where
  | unknownOpcode
  | reservedBit
  | lenOutOfRange
  | finNotAllowed
  deriving DecidableEq, Repr

/-- A command whose LEN may be 0 to `maxLen` and whose FIN must be 0. -/
def decodeNoFin (maxLen : Nat) (i : Instr) (w : Word64) : Except DecodeError Instr :=
  if maxLen < (lenField w).toNat then .error .lenOutOfRange
  else if finField w then .error .finNotAllowed
  else .ok i

/-- The decoder: total on every 64-bit word; an illegal word is rejected by name (R63, R64, R65). -/
def decode (w : Word64) : Except DecodeError Instr :=
  if rsvField w ≠ 0#49 then .error .reservedBit
  else if opField w = 0x01#8 then decodeNoFin 0 .tfEnc w
  else if opField w = 0x02#8 then
    if 32 < (lenField w).toNat then .error .lenOutOfRange
    else .ok (.ubiBlock (lenField w).toNat (finField w))
  else if opField w = 0x10#8 then decodeNoFin 0 .ctxInit w
  else if opField w = 0x11#8 then decodeNoFin 0 .ctxInitCfg w
  else if opField w = 0x12#8 then decodeNoFin 8 (.ctxUpdate (lenField w).toNat) w
  else if opField w = 0x13#8 then decodeNoFin 0 .ctxFinal w
  else .error .unknownOpcode

/-- A command word from its three fields, the reserved bits 0 (R61). -/
def commandWord (op : BitVec 8) (len : Nat) (fin : Bool) : Word64 :=
  0#47 ++ BitVec.ofBool fin ++ 0#2 ++ BitVec.ofNat 6 len ++ op

/-- The opcode of each command (R63). -/
def Instr.opcode : Instr → BitVec 8
  | .tfEnc => 0x01#8
  | .ubiBlock _ _ => 0x02#8
  | .ctxInit => 0x10#8
  | .ctxInitCfg => 0x11#8
  | .ctxUpdate _ => 0x12#8
  | .ctxFinal => 0x13#8

/-- The command word of a well-formed instruction (R63's column "command word"). -/
def encode (i : Instr) : Word64 :=
  match i with
  | .tfEnc => commandWord i.opcode 0 false
  | .ubiBlock len fin => commandWord i.opcode len fin
  | .ctxInit => commandWord i.opcode 0 false
  | .ctxInitCfg => commandWord i.opcode 0 false
  | .ctxUpdate len => commandWord i.opcode len false
  | .ctxFinal => commandWord i.opcode 0 false

/-- The 64-bit command word whose low `nbits` bits are `w` and whose other bits are 0. -/
def tableCommandWord (nbits w : Nat) : Word64 := BitVec.ofNat 64 (w % 2 ^ nbits)

/-- The instruction the decoder reads from a word numbered as spec/opcode_table.json numbers it. -/
def decodeTableWord (nbits w : Nat) : Option Instr :=
  match decode (tableCommandWord nbits w) with
  | .ok i => some i
  | .error _ => none

end Sys2Proof
end

