-- ==== Sys2Proof/Config.lean ====
section
/-! DEFINITION. What the spec leaves free: the value of a read inside the busy hazard. -/

namespace Sys2Proof

/-- The 64 bits that the `k`-th unspecified read returns (70_reset_and_hazards.md R124, 93 U1: "a free draw of
64 bits").  No body: nothing can be proved about its value.  The argument is the counter `draws` of State, so
that two such reads need not agree.  DESIGN CHOICE of form, log 5. -/
opaque Config.busyRead : Nat → Word64

end Sys2Proof
end

