-- ==== Sys2Proof/Machine/State.lean ====
section
/-! DEFINITION. The state of the machine (10_state.md R16 to R33), the reasons it can stop, and reset. -/

namespace Sys2Proof.Machine

open Sys2Proof

/-- CSTATE, the context's lifecycle (10_state.md R28); the value 3 is never produced. -/
inductive CState where
  | idle
  | ready
  | finalized
  deriving DecidableEq, Repr

/-- ERR, the result of the last completed command (60_exceptions.md R105); 3 to 15 are never produced. -/
inductive ErrCode where
  /-- NONE, 0. -/
  | noError
  /-- ILLEGAL_CMD, 1 (R107). -/
  | illegalCmd
  /-- INVALID_STATE, 2 (R108). -/
  | invalidState
  deriving DecidableEq, Repr

/-- The streaming context (10_state.md R24 to R28). -/
structure Context where
  /-- CV (R24). -/
  cv : Word256
  /-- CTW (R25). -/
  ctw : Tweak128
  /-- BUF, read by the host as CBUF0..3 (R26). -/
  buf : Bytes32
  /-- BCNT, 0 to 32 (R27). -/
  bcnt : Fin 33
  /-- CSTATE (R28). -/
  cstate : CState
  deriving DecidableEq, Repr

/-- The registers of 10_state.md R18, but for BUSY (`State.engine`), CMD (no storage) and ID (a constant). -/
structure Regs where
  /-- KEY (R19). -/
  key : Word256
  /-- TWK (R20). -/
  twk : Tweak128
  /-- BLK (R21). -/
  blk : Word256
  /-- RES (R22). -/
  res : Word256
  /-- DIN (R23). -/
  din : Word64
  /-- STATUS.ERR (R32). -/
  err : ErrCode
  /-- CV, CTW, BUF, BCNT and CSTATE. -/
  ctx : Context
  deriving DecidableEq, Repr

/-- The registers of the window map (20_memory.md R48), by name. -/
inductive Reg where
  | cmd
  | status
  | key (i : Fin 4)
  | twk (i : Fin 2)
  | blk (i : Fin 4)
  | res (i : Fin 4)
  | din
  | id
  | cv (i : Fin 4)
  | ctw (i : Fin 2)
  | cbuf (i : Fin 4)
  deriving DecidableEq, Repr

/-- What the outside world does to the block in one clock cycle (10_state.md R16; log 1). -/
inductive Event where
  /-- A host read of `bytes` bytes at host address `addr` (20_memory.md R49, R50, R53). -/
  | read (addr bytes : Nat)
  /-- A host write of `bytes` bytes at host address `addr` (20_memory.md R49, R51, R53). -/
  | write (addr bytes : Nat) (value : Word64)
  /-- `WAIT`: `RD STATUS`, repeated until it shows BUSY = 0 (30_encoding.md R67). -/
  | wait
  /-- A cycle in which the host makes no access. -/
  | idle
  /-- The platform resets the block (70_reset_and_hazards.md R120, R121). -/
  | reset
  deriving DecidableEq, Repr

/-- A command in flight: BUSY is 1 (10_state.md R32).  Its operands were sampled at the CMD write, and its results
appear all at once when it completes (20_memory.md R56), so it holds the registers as they will stand then. -/
structure InFlight where
  /-- The cycles until BUSY returns to 0 (70_reset_and_hazards.md R130). -/
  cyclesLeft : Nat
  /-- The registers at completion. -/
  result : Regs
  deriving DecidableEq, Repr

/-- What one host read returned (30_encoding.md R66). -/
structure ReadEntry where
  offset : BitVec 8
  value : Word64
  deriving DecidableEq, Repr

/-- The state.  The last eight fields are the model's own, not the spec's (INVENTORY.md, State; log 1 to 6): the host's
side and the parameters. -/
structure State where
  /-- The architectural registers (10_state.md R18). -/
  regs : Regs
  /-- The command in flight; STATUS.BUSY is 1 exactly when there is one (10_state.md R31, R32). -/
  engine : Option InFlight
  /-- The host has written CMD and has not yet read STATUS with BUSY = 0: what R124 asks of the host before its next
  access (70_reset_and_hazards.md R124; log 3). -/
  unconfirmed : Bool
  /-- The host has broken R124 after a command's end: it accessed the block, with BUSY = 0, before it had read that
  (70_reset_and_hazards.md R124; log 3). -/
  early : Bool
  /-- The host's accesses and the platform's resets still to come, the next one first. -/
  script : List Event
  /-- What the host's reads returned, the latest first. -/
  readLog : List ReadEntry
  /-- The parameter LAT, less 1, of the commands still to come; a command past the end takes one cycle (R130, U5). -/
  latencies : List Nat
  /-- How many unspecified reads have been made (93 U1). -/
  draws : Nat
  /-- The parameter BASE divided by 256 (20_memory.md R47, U4). -/
  basePage : Nat
  /-- Whether the busy hazard reaches, as 70_reset_and_hazards.md R124 writes, to the host's read of STATUS with BUSY = 0
  (true), or, as 20_memory.md R50 and R51 write, to the end of BUSY = 1 (false).  A parameter (log 3). -/
  strictHazard : Bool
  deriving DecidableEq, Repr

/-- Why the machine stops.  Both are raised by host accesses (Machine/Bus.lean), never by a command. -/
inductive Fault where
  /-- Raised by a host read or write inside the window that is not 64 bits wide or not at a multiple of 8: "A model
  must treat such an access as a fault" (20_memory.md R53, 93 U3).  Safe. -/
  | unsupportedAccess
  /-- Raised by a host write to the window in the busy hazard: "a fault that refutes the run"
  (70_reset_and_hazards.md R124, 93 U2).  Safe. -/
  | busyHazardWrite
  deriving DecidableEq, Repr

/-- Why the model gives no meaning. -/
inductive Refusal where
  /-- Raised by an arm of exec whose instruction has no meaning yet; none is left.  Safe. -/
  | notModelled (mnemonic : String)
  /-- Raised by a host access outside the window: which agent answers it "is the platform's business and is not
  part of this spec" (20_memory.md R49).  Safe. -/
  | outsideWindow
  deriving DecidableEq, Repr

/-- CV, CTW, BUF, BCNT and CSTATE after reset (10_state.md R18; 70_reset_and_hazards.md R120). -/
def Context.reset : Context where
  cv := ⟨0, 0, 0, 0⟩
  ctw := ⟨0, 0⟩
  buf := Vector.replicate 32 0
  bcnt := 0
  cstate := .idle

/-- The registers after reset (10_state.md R18; 70_reset_and_hazards.md R120). -/
def Regs.reset : Regs where
  key := ⟨0, 0, 0, 0⟩
  twk := ⟨0, 0⟩
  blk := ⟨0, 0, 0, 0⟩
  res := ⟨0, 0, 0, 0⟩
  din := 0
  err := .noError
  ctx := Context.reset

/-- The machine after reset: every register as R120 states it and no command in flight; the model's own fields at
the values of log 1 to 6 (DESIGN CHOICE). -/
def State.reset : State where
  regs := Regs.reset
  engine := none
  unconfirmed := false
  early := false
  script := []
  readLog := []
  latencies := []
  draws := 0
  basePage := 0
  strictHazard := true

end Sys2Proof.Machine
end

