-- ==== Sys2Proof/Machine/Bytes.lean ====
section
/-! DEFINITION. Words, bytes and their little-endian order (00_scope.md R13, R14; 20_memory.md R55). -/

namespace Sys2Proof.Machine

open Sys2Proof

/-- `rotl64(x, r)`, for `0 <= r <= 63` (R14). -/
def rotl64 (x : Word64) (r : Nat) : Word64 := (x <<< r) ||| (x >>> (64 - r))

/-- Word `i` of a Word256 (R12). -/
def word (w : Word256) (i : Fin 4) : Word64 :=
  match i with
  | 0 => w.w0
  | 1 => w.w1
  | 2 => w.w2
  | 3 => w.w3

/-- A Word256 with word `i` replaced. -/
def setWord (w : Word256) (i : Fin 4) (v : Word64) : Word256 :=
  match i with
  | 0 => { w with w0 := v }
  | 1 => { w with w1 := v }
  | 2 => { w with w2 := v }
  | 3 => { w with w3 := v }

/-- Word `i` of a Tweak128 (R12). -/
def tweakWord (t : Tweak128) (i : Fin 2) : Word64 :=
  match i with
  | 0 => t.t0
  | 1 => t.t1

/-- A Tweak128 with word `i` replaced. -/
def setTweakWord (t : Tweak128) (i : Fin 2) (v : Word64) : Tweak128 :=
  match i with
  | 0 => { t with t0 := v }
  | 1 => { t with t1 := v }

/-- Wordwise addition, each modulo 2^64 (R11). -/
def add256 (a b : Word256) : Word256 := ⟨a.w0 + b.w0, a.w1 + b.w1, a.w2 + b.w2, a.w3 + b.w3⟩

/-- Wordwise exclusive-or (R11). -/
def xor256 (a b : Word256) : Word256 := ⟨a.w0 ^^^ b.w0, a.w1 ^^^ b.w1, a.w2 ^^^ b.w2, a.w3 ^^^ b.w3⟩

/-- Byte lane `j` of a word: `w[8j+7:8j]` (R13). -/
def byteLane (w : Word64) (j : Nat) : Byte := w.extractLsb' (8 * j) 8

/-- `bytes64(w)`: the eight bytes of a word, least significant first (R13). -/
def bytes64 (w : Word64) : List Byte := (List.range 8).map (byteLane w)

/-- `le64(b, i)`: the word formed from bytes `i` to `i+7`, least significant first (R13).  Bytes past the end of `b`
count as 0. -/
def le64 (b : List Byte) (i : Nat) : Word64 :=
  b.getD (i + 7) 0 ++ b.getD (i + 6) 0 ++ b.getD (i + 5) 0 ++ b.getD (i + 4) 0
    ++ b.getD (i + 3) 0 ++ b.getD (i + 2) 0 ++ b.getD (i + 1) 0 ++ b.getD i 0

/-- `B2W(b)` (R13). -/
def b2w (b : Bytes32) : Word256 :=
  ⟨le64 b.toList 0, le64 b.toList 8, le64 b.toList 16, le64 b.toList 24⟩

/-- `W2B(w)`: byte `8i+j` is `wi[8j+7:8j]` (R13). -/
def w2b (w : Word256) : Bytes32 :=
  Vector.ofFn fun k => byteLane (word w ⟨k.val / 8, by omega⟩) (k.val % 8)

/-- `pad32(b, n)`: bytes 0 to n-1 of `b`, then zeros (R13). -/
def pad32 (b : List Byte) (n : Nat) : Bytes32 :=
  Vector.ofFn fun k => if k.val < n then b.getD k.val 0 else 0

/-- 32 zero bytes. -/
def zero32 : Bytes32 := Vector.replicate 32 0

end Sys2Proof.Machine
end

