-- ==== Sys2Proof/Machine/Operands.lean ====
section
/-! DEFINITION. The operand forms of the commands that are not whole registers: lanes of DIN and bytes of BLK
(30_encoding.md R62; 10_state.md R21, R23). -/

namespace Sys2Proof.Machine

open Sys2Proof

/-- Byte lanes 0 to n-1 of DIN, lane 0 first (10_state.md R23; 42_skein_context.md R102). -/
def dinBytes (din : Word64) (n : Nat) : List Byte := (List.range n).map (byteLane din)

/-- `W2B(BLK)`, the block bytes of UBI_BLOCK; the byte count LEN selects bytes 0 to LEN-1 of it (10_state.md R21;
41_ubi.md R89). -/
def blkBytes (r : Regs) : Bytes32 := w2b r.blk

end Sys2Proof.Machine
end

