-- ==== Sys2Proof/Machine/Flags.lean ====
section
/-! DEFINITION. STATUS, the only flags of the block (10_state.md R31, R32; 60_exceptions.md R105). -/

namespace Sys2Proof.Machine

open Sys2Proof

/-- The code in STATUS.ERR (60_exceptions.md R105). -/
def errCode : ErrCode → BitVec 4
  | .noError => 0#4
  | .illegalCmd => 1#4
  | .invalidState => 2#4

/-- The code in STATUS.CSTATE (10_state.md R28). -/
def cstateCode : CState → BitVec 2
  | .idle => 0#2
  | .ready => 1#2
  | .finalized => 2#2

/-- STATUS assembled from its fields, the reserved bits 63:22, 15:10 and 3:1 read as 0 (10_state.md R31). -/
def statusWord (busy : Bool) (r : Regs) : Word64 :=
  0#42 ++ BitVec.ofNat 6 r.ctx.bcnt.val ++ 0#6 ++ cstateCode r.ctx.cstate ++ errCode r.err ++ 0#3 ++ BitVec.ofBool busy

/-- STATUS.BUSY: 1 while a command executes (10_state.md R31). -/
def busy (s : State) : Bool := s.engine.isSome

/-- The busy hazard (70_reset_and_hazards.md R124): while BUSY = 1, and, where R124 is taken to its letter, from then on
until the host has read STATUS with BUSY = 0 (log 3). -/
def inHazard (s : State) : Bool := busy s || (s.strictHazard && s.unconfirmed)

end Sys2Proof.Machine
end

