-- ==== Sys2Proof/Machine/Ops.lean ====
section
/-! DEFINITION. The named operations on registers: the register window (20_memory.md R48 to R52), completing a
command, and raising an error (60_exceptions.md R104 to R111). -/

namespace Sys2Proof.Machine

open Sys2Proof

/-- ID, the ASCII bytes "SKEIN256" (10_state.md R33). -/
def idValue : Word64 := 0x3635324E49454B53#64

/-- The register window map (20_memory.md R48); the offsets 0xE0 to 0xF8 are reserved. -/
def windowMap : List (BitVec 8 × Reg) :=
  [(0x00#8, .cmd), (0x08#8, .status),
   (0x10#8, .key 0), (0x18#8, .key 1), (0x20#8, .key 2), (0x28#8, .key 3),
   (0x30#8, .twk 0), (0x38#8, .twk 1),
   (0x40#8, .blk 0), (0x48#8, .blk 1), (0x50#8, .blk 2), (0x58#8, .blk 3)]
  ++ [(0x60#8, .res 0), (0x68#8, .res 1), (0x70#8, .res 2), (0x78#8, .res 3),
   (0x80#8, .din), (0x88#8, .id),
   (0x90#8, .cv 0), (0x98#8, .cv 1), (0xA0#8, .cv 2), (0xA8#8, .cv 3)]
  ++ [(0xB0#8, .ctw 0), (0xB8#8, .ctw 1),
   (0xC0#8, .cbuf 0), (0xC8#8, .cbuf 1), (0xD0#8, .cbuf 2), (0xD8#8, .cbuf 3)]

/-- The register at a window offset; none at a reserved one (20_memory.md R48, R49). -/
def regAt (off : BitVec 8) : Option Reg := windowMap.lookup off

/-- The window offset of a register (20_memory.md R48). -/
def offsetOf : Reg → BitVec 8
  | .cmd => 0x00#8
  | .status => 0x08#8
  | .key i => 0x10#8 + 8#8 * BitVec.ofNat 8 i.val
  | .twk i => 0x30#8 + 8#8 * BitVec.ofNat 8 i.val
  | .blk i => 0x40#8 + 8#8 * BitVec.ofNat 8 i.val
  | .res i => 0x60#8 + 8#8 * BitVec.ofNat 8 i.val
  | .din => 0x80#8
  | .id => 0x88#8
  | .cv i => 0x90#8 + 8#8 * BitVec.ofNat 8 i.val
  | .ctw i => 0xB0#8 + 8#8 * BitVec.ofNat 8 i.val
  | .cbuf i => 0xC0#8 + 8#8 * BitVec.ofNat 8 i.val

/-- The value of a register as `MemRead` gives it while BUSY = 0: CMD reads 0, STATUS is assembled from its
fields, `CBUFi = le64(BUF, 8i)` (20_memory.md R50). -/
def readReg (s : State) : Reg → Word64
  | .cmd => 0
  | .status => statusWord (busy s) s.regs
  | .key i => word s.regs.key i
  | .twk i => tweakWord s.regs.twk i
  | .blk i => word s.regs.blk i
  | .res i => word s.regs.res i
  | .din => s.regs.din
  | .id => idValue
  | .cv i => word s.regs.ctx.cv i
  | .ctw i => tweakWord s.regs.ctx.ctw i
  | .cbuf i => le64 s.regs.ctx.buf.toList (8 * i.val)

/-- The value at a window offset: a reserved offset reads 0 (20_memory.md R50, R52). -/
def readOffset (s : State) (off : BitVec 8) : Word64 :=
  match regAt off with
  | some r => readReg s r
  | none => 0

/-- A host write of a register other than CMD: it replaces a read-write register, and a read-only one ignores it
(20_memory.md R51, R52).  CMD has no storage (10_state.md R30). -/
def writeReg (g : Regs) (v : Word64) : Reg → Regs
  | .key i => { g with key := setWord g.key i v }
  | .twk i => { g with twk := setTweakWord g.twk i v }
  | .blk i => { g with blk := setWord g.blk i v }
  | .din => { g with din := v }
  | .cmd => g
  | .status => g
  | .res _ => g
  | .id => g
  | .cv _ => g
  | .ctw _ => g
  | .cbuf _ => g

/-- A command completes with its whole effect: the registers it leaves, and STATUS.ERR <- NONE (60_exceptions.md
R104). -/
def finish (g : Regs) (s : State) : State := { s with regs := { g with err := .noError } }

/-- `raise E(code)`: STATUS.ERR <- code and no other register changes (60_exceptions.md R106).  This is the whole of
taking an error: no state is saved, no mode changes, no handler is entered (R110), and there is no return (R111). -/
def raiseError (e : ErrCode) (s : State) : State := { s with regs := { s.regs with err := e } }

end Sys2Proof.Machine
end

