-- ==== Sys2Proof/Machine/Threefish.lean ====
section
/-! DEFINITION. Threefish-256 (40_threefish.md R72 to R81) and the command TF_ENC (R82). -/

namespace Sys2Proof.Machine

open Sys2Proof

/-- The key schedule constant (R75). -/
def c240 : Word64 := 0x1BD11BDAA9FC1A22#64

/-- Tweak word `t[i mod 3]` (R74). -/
def tweakScheduleWord (t : Tweak128) (i : Nat) : Word64 :=
  match i % 3 with
  | 0 => t.t0
  | 1 => t.t1
  | _ => t.t0 ^^^ t.t1

/-- Key word `k[i mod 5]` (R75; 90_conflicts.md C5). -/
def keyScheduleWord (k : Word256) (i : Nat) : Word64 :=
  match i % 5 with
  | 0 => k.w0
  | 1 => k.w1
  | 2 => k.w2
  | 3 => k.w3
  | _ => k.w0 ^^^ k.w1 ^^^ k.w2 ^^^ k.w3 ^^^ c240

/-- Subkey `ks(s)` (R76). -/
def subkey (k : Word256) (t : Tweak128) (s : Nat) : Word256 where
  w0 := keyScheduleWord k s
  w1 := keyScheduleWord k (s + 1) + tweakScheduleWord t s
  w2 := keyScheduleWord k (s + 2) + tweakScheduleWord t (s + 1)
  w3 := keyScheduleWord k (s + 3) + BitVec.ofNat 64 s

/-- ROT0 (R77). -/
def rot0 : List Nat := [14, 52, 23, 5, 25, 46, 58, 32]

/-- ROT1 (R77). -/
def rot1 : List Nat := [16, 57, 40, 37, 33, 12, 22, 32]

/-- `MIX(x0, x1, R)` (R78). -/
def mix (x0 x1 : Word64) (r : Nat) : Word64 × Word64 :=
  let y0 := x0 + x1
  (y0, rotl64 x1 r ^^^ y0)

/-- The subkey injection before round `r`, when `r mod 4 = 0` (R80). -/
def injectBefore (k : Word256) (t : Tweak128) (e : Word256) (r : Nat) : Word256 :=
  if r % 4 = 0 then add256 e (subkey k t (r / 4)) else e

/-- Both MIXes and then the permutation, which swaps words 1 and 3 (R78, R79, R80). -/
def mixPermute (e : Word256) (r : Nat) : Word256 :=
  let a := mix e.w0 e.w1 (rot0.getD (r % 8) 0)
  let b := mix e.w2 e.w3 (rot1.getD (r % 8) 0)
  ⟨a.1, b.2, b.1, a.2⟩

/-- Round `r` (R80). -/
def tfRound (k : Word256) (t : Tweak128) (e : Word256) (r : Nat) : Word256 :=
  mixPermute (injectBefore k t e r) r

/-- The working state after rounds 0 to n-1. -/
def tfRounds (k : Word256) (t : Tweak128) (n : Nat) (p : Word256) : Word256 :=
  (List.range n).foldl (tfRound k t) p

/-- `TF(K, T, P)`: 72 rounds and the final injection with s = 18 (R81; 90_conflicts.md C10). -/
def threefish (k : Word256) (t : Tweak128) (p : Word256) : Word256 :=
  add256 (tfRounds k t 72 p) (subkey k t 18)

/-- TF_ENC: RES <- TF(KEY, TWK, BLK); STATUS.ERR <- NONE (R82).  Legal in every CSTATE. -/
def execTfEnc (s : State) : Host.Outcome State Fault Refusal :=
  .next (finish { s.regs with res := threefish s.regs.key s.regs.twk s.regs.blk } s)

end Sys2Proof.Machine
end

