-- ==== Sys2Proof/Machine/Tweak.lean ====
section
/-! DEFINITION. The tweak format and its operations, bit by bit (10_state.md R34 to R44; 90_conflicts.md C1). -/

namespace Sys2Proof.Machine

open Sys2Proof

/-- The block-type codes (R36). -/
def cfgType : BitVec 6 := 4#6
/-- MSG = 48 (R36). -/
def msgType : BitVec 6 := 48#6
/-- OUT = 63 (R36). -/
def outType : BitVec 6 := 63#6

/-- `getPos(T) = T[95:0]` (R37). -/
def getPos (t : Tweak128) : BitVec 96 := t.t1.extractLsb' 0 32 ++ t.t0

/-- `setPos(T, p)`: bits 95:0 replaced by `p`, a number modulo 2^96; bits 127:96 unchanged (R38). -/
def setPos (t : Tweak128) (p : BitVec 96) : Tweak128 :=
  ⟨p.extractLsb' 0 64, t.t1.extractLsb' 32 32 ++ p.extractLsb' 64 32⟩

/-- The position advanced by `n`, modulo 2^96, with no carry into bit 96 (R38). -/
def advancePos (t : Tweak128) (n : Nat) : Tweak128 := setPos t (getPos t + BitVec.ofNat 96 n)

/-- The type field, T[125:120] (R34). -/
def getType (t : Tweak128) : BitVec 6 := t.t1.extractLsb' 56 6

/-- The reserved field, T[119:96] (R34, R35). -/
def getReserved (t : Tweak128) : BitVec 24 := t.t1.extractLsb' 32 24

/-- `setType(T, c)`: tweak byte 15 masked with 0xC0 before the code is ORed in (R39). -/
def setType (t : Tweak128) (c : BitVec 6) : Tweak128 :=
  { t with t1 := ((t.t1.extractLsb' 56 8 &&& 0xC0#8) ||| c.zeroExtend 8) ++ t.t1.extractLsb' 0 56 }

/-- `getFirst(T) = t1[62]` (R40). -/
def getFirst (t : Tweak128) : Bool := t.t1.getLsbD 62

/-- `setFirst(T, b)`: bit 126 set to `b`, every other bit unchanged (R40). -/
def setFirst (t : Tweak128) (b : Bool) : Tweak128 :=
  { t with t1 := t.t1.extractLsb' 63 1 ++ BitVec.ofBool b ++ t.t1.extractLsb' 0 62 }

/-- `getFinal(T) = t1[63]` (R41). -/
def getFinal (t : Tweak128) : Bool := t.t1.getLsbD 63

/-- `setFinal(T, b)`: bit 127 set to `b`, every other bit unchanged (R41). -/
def setFinal (t : Tweak128) (b : Bool) : Tweak128 :=
  { t with t1 := BitVec.ofBool b ++ t.t1.extractLsb' 0 63 }

/-- The raw-byte form of a tweak, 16 bytes (R42). -/
def tweakBytes (t : Tweak128) : List Byte := bytes64 t.t0 ++ bytes64 t.t1

/-- `mkTweak(c, first, final)`: position 0, reserved bits zero (R43). -/
def mkTweak (c : BitVec 6) (first final : Bool) : Tweak128 where
  t0 := 0
  t1 := ((BitVec.ofBool final).zeroExtend 64 <<< 63) ||| ((BitVec.ofBool first).zeroExtend 64 <<< 62)
    ||| (c.zeroExtend 64 <<< 56)

end Sys2Proof.Machine
end

