-- ==== Sys2Proof/Machine/Ubi.lean ====
section
/-! DEFINITION. The UBI chaining engine (41_ubi.md R83 to R88) and the command UBI_BLOCK (R89). -/

namespace Sys2Proof.Machine

open Sys2Proof

/-- The tweak a block is encrypted with: the position counts this block's bytes, and the final flag is set when
`f` (R83). -/
def blockTweak (t : Tweak128) (n : Nat) (f : Bool) : Tweak128 :=
  if f then setFinal (advancePos t n) true else advancePos t n

/-- `ubiBlock(G, T, b, n, f)`: one block (R83; 90_conflicts.md C3, C6). -/
def ubiBlock (g : Word256) (t : Tweak128) (b : Bytes32) (n : Nat) (f : Bool) : Word256 × Tweak128 :=
  let m := b2w (pad32 b.toList n)
  let tenc := blockTweak t n f
  (xor256 (threefish g tenc m) m, setFirst tenc false)

/-- The number of blocks `N = max(1, ceil(L / 32))` of a message of `L` bytes (R85, R88). -/
def blockCount (len : Nat) : Nat := max 1 ((len + 31) / 32)

/-- The number of bytes `n_j` of block `j` (R85). -/
def blockLen (len j : Nat) : Nat := if j + 1 < blockCount len then 32 else len - 32 * (blockCount len - 1)

/-- The bytes of block `j` (R85). -/
def blockBytes (m : List Byte) (j : Nat) : List Byte := (m.drop (32 * j)).take (blockLen m.length j)

/-- Block `j` of a UBI pass over `m`: the final flag on the last block only (R86). -/
def passStep (m : List Byte) (gt : Word256 × Tweak128) (j : Nat) : Word256 × Tweak128 :=
  ubiBlock gt.1 gt.2 (pad32 (blockBytes m j) (blockLen m.length j)) (blockLen m.length j)
    (j + 1 == blockCount m.length)

/-- `ubiPass(G, T, m)` (R86). -/
def ubiPass (g : Word256) (t : Tweak128) (m : List Byte) : Word256 × Tweak128 :=
  (List.range (blockCount m.length)).foldl (passStep m) (g, t)

/-- UBI_BLOCK with LEN = len and FIN = fin: KEY and RES <- G', TWK <- T'; STATUS.ERR <- NONE (R89).  LEN above 32 is
IllegalCommand.  Legal in every CSTATE. -/
def execUbiBlock (len : Nat) (fin : Bool) (s : State) : Host.Outcome State Fault Refusal :=
  if 32 < len then .next (raiseError .illegalCmd s)
  else
    let out := ubiBlock s.regs.key s.regs.twk (blkBytes s.regs) len fin
    .next (finish { s.regs with key := out.1, res := out.1, twk := out.2 } s)

end Sys2Proof.Machine
end

