-- ==== Sys2Proof/Machine/Skein.lean ====
section
/-! DEFINITION. The Skein-256-256 construction (42_skein_context.md R90 to R96). -/

namespace Sys2Proof.Machine

open Sys2Proof

/-- CFGSTR: schema id "SHA3", version 1, two reserved bytes, output length 256, sixteen zero bytes (R90). -/
def cfgString : List Byte :=
  [0x53#8, 0x48#8, 0x41#8, 0x33#8] ++ [0x01#8, 0x00#8] ++ [0x00#8, 0x00#8]
    ++ [0x00#8, 0x01#8, 0x00#8, 0x00#8, 0x00#8, 0x00#8, 0x00#8, 0x00#8] ++ List.replicate 16 0x00#8

/-- The configuration pass: G0 (R91). -/
def configPass : Word256 := (ubiPass ⟨0, 0, 0, 0⟩ (mkTweak cfgType true true) cfgString).1

/-- The constant IV (R92). -/
def iv : Word256 :=
  ⟨0xFC9DA860D048B449#64, 0x2FCA66479FA7D833#64, 0xB33BC3896656840F#64, 0x6A54E920FDE8DA69#64⟩

/-- The message pass from G0: G1 (R93). -/
def messagePass (g0 : Word256) (m : List Byte) : Word256 := (ubiPass g0 (mkTweak msgType true false) m).1

/-- The output pass, over eight zero bytes: G2 (R94; 90_conflicts.md C8). -/
def outputPass (g1 : Word256) : Word256 := (ubiPass g1 (mkTweak outType true true) (List.replicate 8 0)).1

/-- `skein256(m) = W2B(G2)` (R95, R96). -/
def skein256 (m : List Byte) : Bytes32 := w2b (outputPass (messagePass iv m))

end Sys2Proof.Machine
end

