-- ==== Sys2Proof/Machine/ContextOps.lean ====
section
/-! DEFINITION. The streaming context's operations (42_skein_context.md R97, R98) and the commands CTX_INIT,
CTX_INIT_CFG, CTX_UPDATE and CTX_FINAL (R100 to R103). -/

namespace Sys2Proof.Machine

open Sys2Proof

/-- A new context with chaining value `cv`: the MSG tweak at position 0, an empty buffer, READY (R100). -/
def newContext (cv : Word256) : Context where
  cv := cv
  ctw := mkTweak msgType true false
  buf := zero32
  bcnt := 0
  cstate := .ready

/-- BUF with the bytes `d` written from byte `count` on (R98). -/
def bufAppend (buf : Bytes32) (count : Nat) (d : List Byte) : Bytes32 :=
  Vector.ofFn fun k =>
    if count ≤ k.val ∧ k.val < count + d.length then d.getD (k.val - count) 0 else buf[k]

/-- Flush block `j` of the bytes `bytes` as an ordinary, non-final UBI block (R98). -/
def flushBlock (bytes : List Byte) (gt : Word256 × Tweak128) (j : Nat) : Word256 × Tweak128 :=
  ubiBlock gt.1 gt.2 (pad32 (bytes.drop (32 * j)) 32) 32 false

/-- The buffered bytes followed by the new ones: `S = BUF[0 .. BCNT-1] ++ d` (R98). -/
def pendingBytes (c : Context) (d : List Byte) : List Byte := c.buf.toList.take c.bcnt.val ++ d

/-- The number of full blocks to flush of `total` bytes: `k = (total - 1) div 32` (R98). -/
def flushCount (total : Nat) : Nat := (total - 1) / 32

/-- The flushing case of `absorb(d)`: all but the last 1 to 32 bytes are processed as ordinary blocks (R98). -/
def absorbFlush (c : Context) (d : List Byte) : Context where
  cv := ((List.range (flushCount (c.bcnt.val + d.length))).foldl (flushBlock (pendingBytes c d)) (c.cv, c.ctw)).1
  ctw := ((List.range (flushCount (c.bcnt.val + d.length))).foldl (flushBlock (pendingBytes c d)) (c.cv, c.ctw)).2
  buf := pad32 ((pendingBytes c d).drop (32 * flushCount (c.bcnt.val + d.length)))
    (c.bcnt.val + d.length - 32 * flushCount (c.bcnt.val + d.length))
  bcnt := ⟨c.bcnt.val + d.length - 32 * flushCount (c.bcnt.val + d.length), by unfold flushCount; omega⟩
  cstate := c.cstate

/-- `absorb(d)`: append `d` to the buffer and flush all but the last 1 to 32 bytes (R98). -/
def absorb (c : Context) (d : List Byte) : Context :=
  if d.length = 0 then c
  else if h : c.bcnt.val + d.length ≤ 32 then
    { c with buf := bufAppend c.buf c.bcnt.val d, bcnt := ⟨c.bcnt.val + d.length, by omega⟩ }
  else absorbFlush c d

/-- The READY context that holds the message `m`, in closed form (R99): blocks 0 to k'-1 flushed, with
k' = (L-1) div 32, and the last bytes of `m` buffered.  No command calls it; statements do. -/
def contextAfter (m : List Byte) : Context where
  cv := ((List.range (flushCount m.length)).foldl (flushBlock m) (iv, mkTweak msgType true false)).1
  ctw := ((List.range (flushCount m.length)).foldl (flushBlock m) (iv, mkTweak msgType true false)).2
  buf := pad32 (m.drop (32 * flushCount m.length)) (m.length - 32 * flushCount m.length)
  bcnt := ⟨m.length - 32 * flushCount m.length, by unfold flushCount; omega⟩
  cstate := .ready

/-- The last message block of CTX_FINAL, with the final flag: (G1, T1) (R103). -/
def finalBlock (c : Context) : Word256 × Tweak128 := ubiBlock c.cv c.ctw c.buf c.bcnt.val true

/-- The output block of CTX_FINAL: G2 (R103, R94). -/
def outputBlock (g1 : Word256) : Word256 := (ubiBlock g1 (mkTweak outType true true) zero32 8 true).1

/-- The context CTX_FINAL leaves: CV the final chaining value, CTW the MSG tweak after the last message block, an
empty buffer, FINALIZED (R103; 90_conflicts.md C9). -/
def closedContext (c : Context) : Context where
  cv := outputBlock (finalBlock c).1
  ctw := (finalBlock c).2
  buf := zero32
  bcnt := 0
  cstate := .finalized

/-- CTX_INIT (R100): accepted in every CSTATE. -/
def execCtxInit (s : State) : Host.Outcome State Fault Refusal :=
  .next (finish { s.regs with ctx := newContext iv } s)

/-- CTX_INIT_CFG (R101): as CTX_INIT, with the chaining value computed by the configuration pass. -/
def execCtxInitCfg (s : State) : Host.Outcome State Fault Refusal :=
  .next (finish { s.regs with ctx := newContext configPass } s)

/-- CTX_UPDATE with LEN = len (R102): LEN above 8 is IllegalCommand, then CSTATE other than READY is InvalidState
(60_exceptions.md R109), also for LEN = 0. -/
def execCtxUpdate (len : Nat) (s : State) : Host.Outcome State Fault Refusal :=
  if 8 < len then .next (raiseError .illegalCmd s)
  else if s.regs.ctx.cstate ≠ .ready then .next (raiseError .invalidState s)
  else .next (finish { s.regs with ctx := absorb s.regs.ctx (dinBytes s.regs.din len) } s)

/-- CTX_FINAL (R103): RES and CV <- G2; InvalidState outside READY, and then RES keeps its value. -/
def execCtxFinal (s : State) : Host.Outcome State Fault Refusal :=
  if s.regs.ctx.cstate ≠ .ready then .next (raiseError .invalidState s)
  else .next (finish { s.regs with
      res := outputBlock (finalBlock s.regs.ctx).1, ctx := closedContext s.regs.ctx } s)

end Sys2Proof.Machine
end

