-- ==== Sys2Proof/Machine/Dispatch.lean ====
section
/-! DEFINITION. One arm per instruction, each one call of its meaning. -/

namespace Sys2Proof.Machine

open Sys2Proof

def exec (i : Instr) (s : State) : Host.Outcome State Fault Refusal :=
  match i with
  | .tfEnc => Sys2Proof.Machine.execTfEnc s
  | .ubiBlock len fin => Sys2Proof.Machine.execUbiBlock len fin s
  | .ctxInit => Sys2Proof.Machine.execCtxInit s
  | .ctxInitCfg => Sys2Proof.Machine.execCtxInitCfg s
  | .ctxUpdate len => Sys2Proof.Machine.execCtxUpdate len s
  | .ctxFinal => Sys2Proof.Machine.execCtxFinal s

end Sys2Proof.Machine
end

