-- ==== Sys2Proof/Machine/Bus.lean ====
section
/-! DEFINITION. One clock cycle: the engine's part and the host's part (20_memory.md R47 to R57;
70_reset_and_hazards.md R120 to R131). -/

namespace Sys2Proof.Machine

open Sys2Proof

/-- BASE, a multiple of 256 (20_memory.md R47). -/
def base (s : State) : Nat := 256 * s.basePage

/-- The window offset of a host address, when `BASE <= a < BASE + 256` (20_memory.md R49). -/
def windowOffset (s : State) (addr : Nat) : Option (BitVec 8) :=
  if base s ≤ addr ∧ addr < base s + 256 then some (BitVec.ofNat 8 (addr - base s)) else none

/-- A supported access: 64 bits wide, `off[2:0] = 0` (20_memory.md R53). -/
def supported (off : BitVec 8) (bytes : Nat) : Bool := bytes == 8 && off.extractLsb' 0 3 == 0#3

/-- What a command word does: IllegalCommand when it is not legal, else the command's rule (60_exceptions.md R107,
R109). -/
def runWord (w : Word64) (s : State) : Host.Outcome State Fault Refusal :=
  match decode w with
  | .error _ => .next (raiseError .illegalCmd s)
  | .ok i => exec i s

/-- LAT of the next command, at least 1 (70_reset_and_hazards.md R130; log 4). -/
def nextLatency (s : State) : Nat := s.latencies.headD 0 + 1

/-- A command starts: BUSY is set (10_state.md R32), the host has its end to read (70_reset_and_hazards.md R124), and the
registers keep their values until it completes (20_memory.md R56).  `t` is the state its rule gives.  The write is noted
as early when the host had not read the end of the command before (log 3). -/
def launch (s t : State) : State :=
  { s with
    engine := some ⟨nextLatency s, t.regs⟩
    unconfirmed := true
    early := s.early || s.unconfirmed
    latencies := s.latencies.tail }

/-- A write of CMD outside the hazard starts the command `w` encodes (10_state.md R30). -/
def writeCmd (w : Word64) (s : State) : Host.Outcome State Fault Refusal :=
  match runWord w s with
  | .next t => .next (launch s t)
  | .fault r => .fault r
  | .refused r => .refused r

/-- Whether a read of an offset is defined inside the hazard: STATUS and ID only (70_reset_and_hazards.md R124). -/
def definedInHazard (off : BitVec 8) : Bool := off == offsetOf .status || off == offsetOf .id

/-- The value a host read returns: the register's outside the hazard (20_memory.md R50), and inside it a free value, but
for STATUS and ID (70_reset_and_hazards.md R124; 93 U1; log 3). -/
def readValue (s : State) (off : BitVec 8) : Word64 :=
  if inHazard s && !definedInHazard off then Config.busyRead s.draws else readOffset s off

/-- A supported host read at a window offset.  It has no effect on the block (20_memory.md R50, R54).  On the host's
side, a read of STATUS with BUSY = 0 tells it that the command has ended, and a read of another register but ID, with
BUSY = 0, before that is noted as early (70_reset_and_hazards.md R124; log 3). -/
def readStep (off : BitVec 8) (s : State) : State :=
  { s with
    readLog := ⟨off, readValue s off⟩ :: s.readLog
    draws := if inHazard s && !definedInHazard off then s.draws + 1 else s.draws
    unconfirmed := if off = offsetOf .status ∧ busy s = false then false else s.unconfirmed
    early := s.early || (s.unconfirmed && !busy s && !definedInHazard off) }

/-- A host write that starts no command leaves the registers `g`; it is noted as early when the host had not read the
end of the command before (70_reset_and_hazards.md R124; log 3). -/
def writtenState (g : Regs) (s : State) : State := { s with regs := g, early := s.early || s.unconfirmed }

/-- A supported host write at a window offset: outside the hazard it takes effect (20_memory.md R51, R52), and inside it
it refutes the run (70_reset_and_hazards.md R124, R131; 93 U2, U8; log 3). -/
def writeStep (off : BitVec 8) (v : Word64) (s : State) : Host.Outcome State Fault Refusal :=
  if inHazard s then .fault .busyHazardWrite
  else
    match regAt off with
    | none => .next (writtenState s.regs s)
    | some .cmd => writeCmd v s
    | some r => .next (writtenState (writeReg s.regs v r) s)

/-- One read of the WAIT loop: while BUSY is 1 the loop stays at the head of the host's list (30_encoding.md R67). -/
def waitStep (s : State) : State :=
  let t := readStep (offsetOf .status) s
  if busy s then { t with script := .wait :: s.script } else t

/-- The platform resets the block: every register at its reset value, the command in flight abandoned
(70_reset_and_hazards.md R120, R121).  The host has no command's end left to read; the rest of its side and the parameters
stay (log 11). -/
def resetStep (s : State) : State := { s with regs := Regs.reset, engine := none, unconfirmed := false }

/-- The host's (or the platform's) part of a cycle: the event `e`, in a state whose list no longer holds it. -/
def eventStep (e : Event) (s : State) : Host.Outcome State Fault Refusal :=
  match e with
  | .read addr bytes =>
    match windowOffset s addr with
    | none => .refused .outsideWindow
    | some off => if supported off bytes then .next (readStep off s) else .fault .unsupportedAccess
  | .write addr bytes v =>
    match windowOffset s addr with
    | none => .refused .outsideWindow
    | some off => if supported off bytes then writeStep off v s else .fault .unsupportedAccess
  | .wait => .next (waitStep s)
  | .idle => .next s
  | .reset => .next (resetStep s)

/-- The engine's part of a cycle: one cycle less to go; at the last one the results appear all at once and BUSY
returns to 0 (20_memory.md R56; 70_reset_and_hazards.md R126, R130). -/
def engineStep (s : State) : State :=
  match s.engine with
  | none => s
  | some p =>
    if p.cyclesLeft ≤ 1 then { s with regs := p.result, engine := none }
    else { s with engine := some { p with cyclesLeft := p.cyclesLeft - 1 } }

/-- The host's part of a cycle: the entry at the head of its list, or nothing when the list is empty. -/
def hostStep (s : State) : Host.Outcome State Fault Refusal :=
  match s.script with
  | [] => .next s
  | e :: rest => eventStep e { s with script := rest }

/-- The state in which the very next cycle writes `w` to CMD: the write at the head of the host's list, the engine
idle and no command's end left for the host to read. -/
def placeCommand (w : Word64) (s : State) : State :=
  { s with
    engine := none
    unconfirmed := false
    script := .write (base s) 8 w :: s.script }

end Sys2Proof.Machine
end

