-- ==== Sys2Proof/Machine/Step.lean ====
section
/-! DEFINITION. The step: one clock cycle (log 1). -/

namespace Sys2Proof.Machine

open Sys2Proof

/-- One clock cycle: the engine advances, then the host makes its next access (10_state.md R16; log 1). -/
def step (s : State) : Host.Outcome State Fault Refusal := hostStep (engineStep s)

/-- `s` with the command word of `nbits` bits `w` as the host's next access, a write of CMD (10_state.md R17, R30:
the program is the sequence of commands the host writes). -/
def State.withFetchWord (s : State) (nbits w : Nat) : State := placeCommand (tableCommandWord nbits w) s

end Sys2Proof.Machine
end

