-- ==== Sys2Proof/Machine/HostProgram.lean ====
section
/-! DEFINITION. Host programs (30_encoding.md R66 to R71): statements, pseudo-instructions, the list of host accesses
they stand for, and the syntax of one line. -/

namespace Sys2Proof.Machine

open Sys2Proof

/-- A host statement (R66); `wait` is the loop of R67. -/
inductive Stmt where
  /-- `WR <reg>, <imm64>`. -/
  | wr (r : Reg) (v : Word64)
  /-- `RD <reg>`. -/
  | rd (r : Reg)
  /-- A command mnemonic: a write of its word to CMD. -/
  | command (i : Instr)
  /-- `WAIT`. -/
  | wait
  deriving DecidableEq, Repr

/-- The host access a statement makes, with the window at `256 * page` (R66, R67). -/
def Stmt.event (page : Nat) : Stmt → Event
  | .wr r v => .write (256 * page + (offsetOf r).toNat) 8 v
  | .rd r => .read (256 * page + (offsetOf r).toNat) 8
  | .command i => .write (256 * page + (offsetOf .cmd).toNat) 8 (encode i)
  | .wait => .wait

/-- A program placed as the host's next accesses. -/
def placeProgram (prog : List Stmt) (s : State) : State :=
  { s with script := prog.map (Stmt.event s.basePage) ++ s.script }

/-- `LDKEY w0, w1, w2, w3` (R68). -/
def ldKey (w : Word256) : List Stmt := [.wr (.key 0) w.w0, .wr (.key 1) w.w1, .wr (.key 2) w.w2, .wr (.key 3) w.w3]

/-- `LDBLK w0, w1, w2, w3` (R68). -/
def ldBlk (w : Word256) : List Stmt := [.wr (.blk 0) w.w0, .wr (.blk 1) w.w1, .wr (.blk 2) w.w2, .wr (.blk 3) w.w3]

/-- `LDTWK t0, t1` (R68). -/
def ldTwk (t : Tweak128) : List Stmt := [.wr (.twk 0) t.t0, .wr (.twk 1) t.t1]

/-- `RDRES` (R68). -/
def rdRes : List Stmt := [.rd (.res 0), .rd (.res 1), .rd (.res 2), .rd (.res 3)]

/-- `LDBLKB b[0..n-1]`, for n <= 32 bytes (R68). -/
def ldBlkBytes (b : List Byte) : List Stmt := ldBlk (b2w (pad32 b b.length))

/-- Chunk `i` of `UPDATE m`: up to 8 bytes (R69). -/
def updateChunk (m : List Byte) (i : Nat) : List Stmt :=
  let c := (m.drop (8 * i)).take 8
  [.wr .din (le64 c 0), .command (.ctxUpdate c.length), .wait]

/-- `UPDATE m` (R69); empty for the empty byte string. -/
def updateProgram (m : List Byte) : List Stmt :=
  ((List.range ((m.length + 7) / 8)).map (updateChunk m)).flatten

/-- `HASH m` (R70). -/
def hashProgram (m : List Byte) : List Stmt :=
  [.command .ctxInit, .wait] ++ updateProgram m ++ [.command .ctxFinal, .wait] ++ rdRes

/-- Block `j` of `UBI_PASS` (R71). -/
def passChunk (m : List Byte) (j : Nat) : List Stmt :=
  ldBlkBytes (blockBytes m j)
    ++ [.command (.ubiBlock (blockLen m.length j) (j + 1 == blockCount m.length)), .wait]

/-- `UBI_PASS G, T, m` (R71). -/
def passProgram (g : Word256) (t : Tweak128) (m : List Byte) : List Stmt :=
  ldKey g ++ ldTwk t ++ ((List.range (blockCount m.length)).map (passChunk m)).flatten

/-! The syntax of one line (R66). -/

/-- The registers by the names of 20_memory.md R48. -/
def regNames : List (List Char × Reg) :=
  [(['C', 'M', 'D'], .cmd), (['S', 'T', 'A', 'T', 'U', 'S'], .status), (['D', 'I', 'N'], .din), (['I', 'D'], .id)]
  ++ (List.finRange 4).map (fun i => (['K', 'E', 'Y', Char.ofNat (48 + i.val)], Reg.key i))
  ++ (List.finRange 2).map (fun i => (['T', 'W', 'K', Char.ofNat (48 + i.val)], Reg.twk i))
  ++ (List.finRange 4).map (fun i => (['B', 'L', 'K', Char.ofNat (48 + i.val)], Reg.blk i))
  ++ (List.finRange 4).map (fun i => (['R', 'E', 'S', Char.ofNat (48 + i.val)], Reg.res i))
  ++ (List.finRange 4).map (fun i => (['C', 'V', Char.ofNat (48 + i.val)], Reg.cv i))
  ++ (List.finRange 2).map (fun i => (['C', 'T', 'W', Char.ofNat (48 + i.val)], Reg.ctw i))
  ++ (List.finRange 4).map (fun i => (['C', 'B', 'U', 'F', Char.ofNat (48 + i.val)], Reg.cbuf i))

/-- The value of a digit character, 0 to 15. -/
def digitValue (c : Char) : Option Nat :=
  if 48 ≤ c.toNat ∧ c.toNat ≤ 57 then some (c.toNat - 48)
  else if 65 ≤ c.toNat ∧ c.toNat ≤ 70 then some (c.toNat - 55)
  else if 97 ≤ c.toNat ∧ c.toNat ≤ 102 then some (c.toNat - 87)
  else none

/-- The number the digits `cs` write after the value `acc`, in the base `radix`. -/
def parseDigits (radix acc : Nat) : List Char → Option Nat
  | [] => some acc
  | c :: cs =>
    match digitValue c with
    | none => none
    | some d => if d < radix then parseDigits radix (acc * radix + d) cs else none

/-- A decimal number, or a hexadecimal one after 0x (R66). -/
def parseNumber : List Char → Option Nat
  | [] => none
  | '0' :: 'x' :: c :: cs => parseDigits 16 0 (c :: cs)
  | c :: cs => parseDigits 10 0 (c :: cs)

/-- The words of a line: the text before `;`, split at spaces, tabs and commas (R66). -/
def lineWords (cur : List Char) : List Char → List (List Char)
  | [] => if cur.isEmpty then [] else [cur.reverse]
  | c :: cs =>
    if c = ';' then (if cur.isEmpty then [] else [cur.reverse])
    else if c = ' ' ∨ c = '\t' ∨ c = ',' then
      (if cur.isEmpty then lineWords [] cs else cur.reverse :: lineWords [] cs)
    else lineWords (c :: cur) cs

/-- A command statement, where its byte count is in range (R66). -/
def commandStmt (i : Instr) : Option Stmt := if i.wf then some (.command i) else none

/-- The statement the words of a line write (R66, R67). -/
def parseWords (ws : List (List Char)) : Option Stmt :=
  match ws with
  | [m] =>
    if m = ['T', 'F', '_', 'E', 'N', 'C'] then some (.command .tfEnc)
    else if m = ['C', 'T', 'X', '_', 'I', 'N', 'I', 'T'] then some (.command .ctxInit)
    else if m = ['C', 'T', 'X', '_', 'I', 'N', 'I', 'T', '_', 'C', 'F', 'G'] then some (.command .ctxInitCfg)
    else if m = ['C', 'T', 'X', '_', 'F', 'I', 'N', 'A', 'L'] then some (.command .ctxFinal)
    else if m = ['W', 'A', 'I', 'T'] then some .wait
    else none
  | [m, a] =>
    if m = ['R', 'D'] then (regNames.lookup a).map .rd
    else if m = ['U', 'B', 'I', '_', 'B', 'L', 'O', 'C', 'K'] then
      (parseNumber a).bind fun n => commandStmt (.ubiBlock n false)
    else if m = ['C', 'T', 'X', '_', 'U', 'P', 'D', 'A', 'T', 'E'] then
      (parseNumber a).bind fun n => commandStmt (.ctxUpdate n)
    else none
  | [m, a, b] =>
    if m = ['W', 'R'] then
      (regNames.lookup a).bind fun r => (parseNumber b).bind fun v =>
        if v < 2 ^ 64 then some (.wr r (BitVec.ofNat 64 v)) else none
    else if m = ['U', 'B', 'I', '_', 'B', 'L', 'O', 'C', 'K'] ∧ b = ['F', 'I', 'N'] then
      (parseNumber a).bind fun n => commandStmt (.ubiBlock n true)
    else none
  | _ => none

/-- The statement a line writes; none for a line that writes no statement (R66). -/
def parseLine (line : List Char) : Option Stmt := parseWords (lineWords [] line)

end Sys2Proof.Machine
end

