-- ==== Sys2Proof/Safety.lean ====
section
/-! DEFINITION. The terms claims are stated in: the invariant of the context and of the machine (10_state.md R25 to
R29), and which registers a command may write (10_state.md R18). -/

namespace Sys2Proof.Machine

open Sys2Proof

/-- What 10_state.md R29.3 and R25 say of CTW while a message is being absorbed: type MSG, final 0, reserved bits 0,
the position a multiple of 32; the first flag is 1 only at position 0; once a block has been flushed (first is 0)
the buffer is not empty.  R29's converse, "first is 1 when the position is 0", fails once the position has wrapped
modulo 2^96 and is left out (log 8). -/
structure ReadyTweak (c : Context) : Prop where
  type_msg : getType c.ctw = msgType
  final_clear : getFinal c.ctw = false
  reserved_zero : getReserved c.ctw = 0
  whole_blocks : (getPos c.ctw).toNat % 32 = 0
  first_at_start : getFirst c.ctw = true → getPos c.ctw = 0
  buffered_after_flush : getFirst c.ctw = false → 1 ≤ c.bcnt.val

/-- What 10_state.md R25 and 42_skein_context.md R103 say of CTW after CTX_FINAL. -/
structure ClosedTweak (c : Context) : Prop where
  type_msg : getType c.ctw = msgType
  final_set : getFinal c.ctw = true
  first_clear : getFirst c.ctw = false
  reserved_zero : getReserved c.ctw = 0
  empty : c.bcnt = 0

/-- The invariant of the context (10_state.md R29, R25). -/
structure ContextInv (c : Context) : Prop where
  /-- `BUF[j] = 0` for every `j >= BCNT` (R29.2). -/
  tail_zero : ∀ j : Fin 32, c.bcnt.val ≤ j.val → c.buf[j] = 0
  /-- No context exists in IDLE: everything is as reset left it (R28). -/
  idle_reset : c.cstate = .idle → c = Context.reset
  ready_tweak : c.cstate = .ready → ReadyTweak c
  closed_tweak : c.cstate = .finalized → ClosedTweak c

/-- The invariant of the machine: the context is sound, now and in the result of the command in flight; a command in
flight has at least one cycle to go; and while one is in flight the host has not read its end. -/
structure State.Inv (s : State) : Prop where
  context : ContextInv s.regs.ctx
  result : ∀ p, s.engine = some p → ContextInv p.result.ctx
  running : ∀ p, s.engine = some p → 1 ≤ p.cyclesLeft
  unread : s.engine ≠ none → s.unconfirmed = true

/-- A READY context holds a message: it is the context that absorbing some byte string leaves (42_skein_context.md
R99). -/
def HoldsMessage (c : Context) : Prop := c.cstate = .ready → ∃ m, c = contextAfter m

/-- Which registers of the window a command may write: the column "written by" of 10_state.md R18.  STATUS is
written by every command (ERR). -/
def commandWrites (i : Instr) (r : Reg) : Bool :=
  match r with
  | .status => true
  | .key _ => match i with
    | .ubiBlock _ _ => true
    | .tfEnc | .ctxInit | .ctxInitCfg | .ctxUpdate _ | .ctxFinal => false
  | .twk _ => match i with
    | .ubiBlock _ _ => true
    | .tfEnc | .ctxInit | .ctxInitCfg | .ctxUpdate _ | .ctxFinal => false
  | .res _ => match i with
    | .tfEnc | .ubiBlock _ _ | .ctxFinal => true
    | .ctxInit | .ctxInitCfg | .ctxUpdate _ => false
  | .cv _ | .ctw _ | .cbuf _ => match i with
    | .ctxInit | .ctxInitCfg | .ctxUpdate _ | .ctxFinal => true
    | .tfEnc | .ubiBlock _ _ => false
  | .cmd | .blk _ | .din | .id => false

/-- Whether the host may write a register (20_memory.md R48, column "access": RW). -/
def hostMayWrite : Reg → Bool
  | .key _ | .twk _ | .blk _ | .din => true
  | .cmd | .status | .res _ | .id | .cv _ | .ctw _ | .cbuf _ => false

end Sys2Proof.Machine
end

