-- ==== Sys2Proof/Certificates/Slice0/Obligations.lean ====
section
/-! DEFINITION. The statements for the provers.  Each docstring names the rule of spec/ it rests on. -/

open Sys2Proof Sys2Proof.Machine

/-! Encoding (30_encoding.md). -/

/-- No bit of an encoding is dropped: every well-formed instruction decodes from its own command word (R61 to R63). -/
def Obligations.DecodeOfEncodeIsIdentity : Prop :=
  ∀ i : Instr, i.wf = true → decode (encode i) = .ok i

/-- Every command has exactly one word: a word that decodes is the encoding of the well-formed instruction it decodes
to (R60, R61, R63). -/
def Obligations.EncodeOfDecodeIsIdentity : Prop :=
  ∀ (w : Word64) (i : Instr), decode w = .ok i → i.wf = true ∧ encode i = w

/-- The decoder accepts exactly the words of R64, with OP, LEN, FIN and the reserved bits read off the number `w` at
the places R61 gives them. -/
def Obligations.DecodeAcceptsExactlyLegalWords : Prop :=
  ∀ w : Word64,
    let op := w.toNat % 2 ^ 8
    let len := w.toNat / 2 ^ 8 % 2 ^ 6
    let fin := w.toNat / 2 ^ 16 % 2
    (∃ i, decode w = .ok i) ↔
      (w.toNat / 2 ^ 14 % 2 ^ 2 = 0 ∧ w.toNat / 2 ^ 17 = 0 ∧
        (((op = 0x01 ∨ op = 0x10 ∨ op = 0x11 ∨ op = 0x13) ∧ len = 0 ∧ fin = 0) ∨
          (op = 0x02 ∧ len ≤ 32) ∨ (op = 0x12 ∧ len ≤ 8 ∧ fin = 0)))

/-- Command words written out in R63 and V-ENC decode to the commands they stand for. -/
def Obligations.SampleCommandWordsDecode : Prop :=
  decode 0x0000000000000001#64 = .ok .tfEnc ∧
  decode 0x0000000000012002#64 = .ok (.ubiBlock 32 true) ∧
  decode 0x0000000000002002#64 = .ok (.ubiBlock 32 false) ∧
  decode 0x0000000000010802#64 = .ok (.ubiBlock 8 true) ∧
  decode 0x0000000000000010#64 = .ok .ctxInit ∧
  decode 0x0000000000000011#64 = .ok .ctxInitCfg ∧
  decode 0x0000000000000812#64 = .ok (.ctxUpdate 8) ∧
  decode 0x0000000000000013#64 = .ok .ctxFinal ∧
  decode 0x0000000000000000#64 = .error .unknownOpcode ∧
  decode 0x0000000000002102#64 = .error .lenOutOfRange ∧
  decode 0x0000000000004002#64 = .error .reservedBit ∧
  decode 0x0000000000010012#64 = .error .finNotAllowed

/-! Words, bytes and tweaks (00_scope.md R13, R14; 10_state.md R34 to R44). -/

/-- `rotl64` is the 64-bit left rotation, and `rotl64(x, 0) = x` (R14). -/
def Obligations.RotationIsLeftRotate : Prop :=
  ∀ (x : Word64) (r : Nat), r ≤ 63 →
    (rotl64 x r).toNat = (x.toNat * 2 ^ r ||| x.toNat / 2 ^ (64 - r)) % 2 ^ 64 ∧ rotl64 x 0 = x ∧
    ∀ i : Nat, i < 64 → (rotl64 x r).getLsbD ((i + r) % 64) = x.getLsbD i

/-- `W2B` and `B2W` are inverse, and byte `8i+j` of `W2B(w)` is `wi[8j+7:8j]` (R13). -/
def Obligations.WordsAndBytesAreInverse : Prop :=
  (∀ b : Bytes32, w2b (b2w b) = b) ∧ (∀ w : Word256, b2w (w2b w) = w) ∧
  ∀ (w : Word256) (i : Fin 4) (j : Fin 8) (n : Fin 32), n.val = 8 * i.val + j.val →
    (w2b w)[n].toNat = (word w i).toNat / 2 ^ (8 * j.val) % 2 ^ 8

/-- `setPos(T, p)` replaces bits 95:0 by `p mod 2^96` and keeps bits 127:96; advancing by `n` is modulo 2^96 and never
carries into bit 96 (R38). -/
def Obligations.PositionSetterKeepsHighBits : Prop :=
  ∀ (t : Tweak128) (p n : Nat),
    let v (u : Tweak128) : Nat := u.t0.toNat + 2 ^ 64 * u.t1.toNat
    let t' := setPos t (BitVec.ofNat 96 p)
    v t' % 2 ^ 96 = p % 2 ^ 96 ∧ v t' / 2 ^ 96 = v t / 2 ^ 96 ∧
    t'.t0.toNat = p % 2 ^ 64 ∧ t'.t1.toNat = t.t1.toNat / 2 ^ 32 * 2 ^ 32 + p / 2 ^ 64 % 2 ^ 32 ∧
    v (advancePos t n) % 2 ^ 96 = (v t % 2 ^ 96 + n) % 2 ^ 96 ∧ v (advancePos t n) / 2 ^ 96 = v t / 2 ^ 96

/-- `setType(T, c)` replaces bits 125:120 by `c` and keeps every other bit, the first and final flags among them
(R39). -/
def Obligations.TypeSetterKeepsEveryOtherBit : Prop :=
  ∀ (t : Tweak128) (c : BitVec 6),
    let t' := setType t c
    getType t' = c ∧ t'.t0 = t.t0 ∧
    t'.t1.extractLsb' 56 8 = (t.t1.extractLsb' 56 8 &&& 0xC0#8) ||| c.zeroExtend 8 ∧
    ∀ i : Nat, i < 64 → (i < 56 ∨ 62 ≤ i) → t'.t1.getLsbD i = t.t1.getLsbD i

/-- `setFirst` and `setFinal` set tweak bit 126 and tweak bit 127 and keep every other bit (R40, R41). -/
def Obligations.FlagSettersChangeOneBit : Prop :=
  ∀ (t : Tweak128) (b : Bool),
    (getFirst (setFirst t b) = b ∧ (setFirst t b).t0 = t.t0 ∧
      ∀ i : Nat, i < 64 → i ≠ 62 → (setFirst t b).t1.getLsbD i = t.t1.getLsbD i) ∧
    (getFinal (setFinal t b) = b ∧ (setFinal t b).t0 = t.t0 ∧
      ∀ i : Nat, i < 64 → i ≠ 63 → (setFinal t b).t1.getLsbD i = t.t1.getLsbD i) ∧
    getFirst t = t.t1.getLsbD 62 ∧ getFinal t = t.t1.getLsbD 63

/-- `mkTweak(c, first, final)` has type `c`, the two flags, position 0 and reserved bits zero (R43). -/
def Obligations.MadeTweakHasItsFields : Prop :=
  ∀ (c : BitVec 6) (first final : Bool),
    let t := mkTweak c first final
    getType t = c ∧ getFirst t = first ∧ getFinal t = final ∧ getPos t = 0 ∧ getReserved t = 0 ∧
    t.t0 = 0 ∧ t.t1.toNat = final.toNat * 2 ^ 63 + first.toNat * 2 ^ 62 + c.toNat * 2 ^ 56

/-- The raw-byte form of a tweak is 16 bytes, `bytes64(t0) ++ bytes64(t1)`: byte `k` is bits `8k+7:8k` of the tweak as
a 128-bit value, so the first and final flags are bits 6 and 7 of byte 15 (R42). -/
def Obligations.TweakBytesAreLittleEndian : Prop :=
  ∀ t : Tweak128,
    (tweakBytes t).length = 16 ∧ tweakBytes t = bytes64 t.t0 ++ bytes64 t.t1 ∧
    (∀ k, k < 16 → ((tweakBytes t).getD k 0).toNat = (t.t0.toNat + 2 ^ 64 * t.t1.toNat) / 2 ^ (8 * k) % 2 ^ 8) ∧
    ((tweakBytes t).getD 15 0).getLsbD 6 = getFirst t ∧ ((tweakBytes t).getD 15 0).getLsbD 7 = getFinal t

/-! Threefish-256 (40_threefish.md). -/

/-- TF_ENC: `RES <- TF(KEY, TWK, BLK)`, `STATUS.ERR <- NONE`, in every CSTATE and for every operand; nothing else
changes (R82). -/
def Obligations.TfEncCompletes : Prop :=
  ∀ s : State,
    exec .tfEnc s = .next { s with regs :=
      { s.regs with res := threefish s.regs.key s.regs.twk s.regs.blk, err := .noError } }

/-- Under one key and one tweak, two plaintexts with the same ciphertext are equal: Threefish-256 is a block cipher
(00_scope.md R15; 40_threefish.md R73, R76 to R81). -/
def Obligations.ThreefishIsInjectiveInPlaintext : Prop :=
  ∀ (k : Word256) (t : Tweak128) (p p' : Word256), threefish k t p = threefish k t p' → p = p'

/-- TF is 72 rounds with nineteen subkey injections: before rounds 0, 4, ..., 68 with s = r div 4, and after round 71
with s = 18; each round is the injection, the two MIXes with the rotation tables of R77 and the swap of words 1 and 3;
`kw` is the extended key, `tw` the tweak words and `ks` the subkeys (R74 to R81). -/
def Obligations.ThreefishUnfoldsToRounds : Prop :=
  ∀ (k : Word256) (t : Tweak128) (p : Word256),
    let r0 : List Nat := [14, 52, 23, 5, 25, 46, 58, 32]
    let r1 : List Nat := [16, 57, 40, 37, 33, 12, 22, 32]
    ∃ (kw tw : Nat → Word64) (ks e : Nat → Word256),
      (kw 0 = k.w0 ∧ kw 1 = k.w1 ∧ kw 2 = k.w2 ∧ kw 3 = k.w3 ∧
        kw 4 = k.w0 ^^^ k.w1 ^^^ k.w2 ^^^ k.w3 ^^^ 0x1BD11BDAA9FC1A22#64) ∧
      (tw 0 = t.t0 ∧ tw 1 = t.t1 ∧ tw 2 = t.t0 ^^^ t.t1) ∧
      (∀ s, s ≤ 18 → ks s =
        ⟨kw (s % 5), kw ((s + 1) % 5) + tw (s % 3), kw ((s + 2) % 5) + tw ((s + 1) % 3),
          kw ((s + 3) % 5) + BitVec.ofNat 64 s⟩) ∧
      e 0 = p ∧
      (∀ r, r < 72 →
        let a : Word256 := if r % 4 = 0 then add256 (e r) (ks (r / 4)) else e r
        let y0 := a.w0 + a.w1
        let y2 := a.w2 + a.w3
        e (r + 1) =
          ⟨y0, a.w3.rotateLeft (r1.getD (r % 8) 0) ^^^ y2, y2, a.w1.rotateLeft (r0.getD (r % 8) 0) ^^^ y0⟩) ∧
      threefish k t p = add256 (e 72) (ks 18)

/-! UBI (41_ubi.md). -/

/-- `ubiBlock` changes only the position, the final flag and the first flag of the tweak (R84). -/
def Obligations.UbiBlockTweakFields : Prop :=
  ∀ (g : Word256) (t : Tweak128) (b : Bytes32) (n : Nat) (f : Bool), n ≤ 32 →
    let t' := (ubiBlock g t b n f).2
    getPos t' = getPos t + BitVec.ofNat 96 n ∧ getFinal t' = (f || getFinal t) ∧ getFirst t' = false ∧
    getType t' = getType t ∧ getReserved t' = getReserved t

/-- UBI_BLOCK with LEN = n and FIN = f completes in every state: M is the first n bytes of BLK, zero padded; the tweak
counts n bytes and has final set when f; KEY and RES receive TF(KEY, Tenc, M) ^ M; TWK receives Tenc with first
cleared; nothing else changes (R83, R89). -/
def Obligations.UbiBlockCompletes : Prop :=
  ∀ (s : State) (n : Nat) (f : Bool), n ≤ 32 →
    ∃ (m : Word256) (tenc : Tweak128) (g' : Word256),
      (∀ j : Fin 32, (w2b m)[j] = if j.val < n then (w2b s.regs.blk)[j] else 0) ∧
      getPos tenc = getPos s.regs.twk + BitVec.ofNat 96 n ∧
      getFinal tenc = (f || getFinal s.regs.twk) ∧ getFirst tenc = getFirst s.regs.twk ∧
      getType tenc = getType s.regs.twk ∧ getReserved tenc = getReserved s.regs.twk ∧
      g' = xor256 (threefish s.regs.key tenc m) m ∧
      exec (.ubiBlock n f) s = .next { s with regs :=
        { s.regs with key := g', res := g', twk := setFirst tenc false, err := .noError } }

/-- UBI_BLOCK ignores bytes n to 31 of BLK: two blocks that agree on the first n bytes give the same KEY, RES and TWK
(R89; 93 U14). -/
def Obligations.UbiBlockIgnoresBytesPastLen : Prop :=
  ∀ (s : State) (blk' : Word256) (n : Nat) (f : Bool), n ≤ 32 →
    (∀ j : Fin 32, j.val < n → (w2b s.regs.blk)[j] = (w2b blk')[j]) →
    ∃ t t', exec (.ubiBlock n f) s = .next t ∧
      exec (.ubiBlock n f) { s with regs := { s.regs with blk := blk' } } = .next t' ∧
      t'.regs = { t.regs with blk := blk' }

/-- The blocks of a message: N = max(1, ceil(L / 32)) of them, each but the last of 32 bytes, the last of 1 to 32 (0
for the empty message); together they are the message (R85). -/
def Obligations.MessageSplitsIntoItsBlocks : Prop :=
  ∀ m : List Byte,
    1 ≤ blockCount m.length ∧ 32 * (blockCount m.length - 1) ≤ m.length ∧ m.length ≤ 32 * blockCount m.length ∧
    (m ≠ [] → 32 * (blockCount m.length - 1) < m.length) ∧
    (∀ j, j < blockCount m.length → (blockBytes m j).length = blockLen m.length j) ∧
    (∀ j, j + 1 < blockCount m.length → blockLen m.length j = 32) ∧
    blockLen m.length (blockCount m.length - 1) = m.length - 32 * (blockCount m.length - 1) ∧
    ((List.range (blockCount m.length)).map (blockBytes m)).flatten = m

/-- A UBI pass returns a tweak with the position advanced by the length, first 0 and final 1; type and reserved bits
pass through (R87, R84). -/
def Obligations.UbiPassTweakFields : Prop :=
  ∀ (g : Word256) (t : Tweak128) (m : List Byte),
    let t' := (ubiPass g t m).2
    getPos t' = getPos t + BitVec.ofNat 96 m.length ∧ getFirst t' = false ∧ getFinal t' = true ∧
    getType t' = getType t ∧ getReserved t' = getReserved t

/-- The tweak each block of a UBI pass is encrypted with, where `T` is the tweak after blocks 0 to j-1: block j < N-1
counts 32(j+1) bytes past the entry position, the last block counts the whole length; only block 0 has the entry
tweak's first flag, only the last block gets the final flag, and type and reserved bits are the entry tweak's (R87, R86,
R84). -/
def Obligations.UbiPassBlockTweaks : Prop :=
  ∀ (g : Word256) (t : Tweak128) (m : List Byte) (j : Nat), j < blockCount m.length →
    let before := ((List.range j).foldl (passStep m) (g, t)).2
    let tenc := blockTweak before (blockLen m.length j) (j + 1 == blockCount m.length)
    (j + 1 < blockCount m.length → getPos tenc = getPos t + BitVec.ofNat 96 (32 * (j + 1))) ∧
    (j + 1 = blockCount m.length → getPos tenc = getPos t + BitVec.ofNat 96 m.length) ∧
    getFirst tenc = (getFirst t && j == 0) ∧ getFinal tenc = (getFinal t || j + 1 == blockCount m.length) ∧
    getType tenc = getType t ∧ getReserved tenc = getReserved t

/-- A UBI pass over zero bytes is one zero block: M = 0, the position as it was, the final flag set, the first flag as
in the entry tweak; and CTX_FINAL with BCNT = 0 processes the same block (R88). -/
def Obligations.EmptyPassIsOneZeroBlock : Prop :=
  (∀ (g : Word256) (t : Tweak128),
    ubiPass g t [] = (threefish g (setFinal t true) ⟨0, 0, 0, 0⟩, setFirst (setFinal t true) false)) ∧
  ∀ c : Context, c.bcnt = 0 → finalBlock c = ubiPass c.cv c.ctw []

/-! The Skein-256 construction and the streaming context (42_skein_context.md). -/

/-- IV is the constant the rule prints, and the configuration pass gives it: G0 = IV (R92, R91). -/
def Obligations.ConfigurationPassGivesIv : Prop :=
  iv = ⟨0xFC9DA860D048B449#64, 0x2FCA66479FA7D833#64, 0xB33BC3896656840F#64, 0x6A54E920FDE8DA69#64⟩ ∧
  configPass = iv

/-- CTX_INIT completes in every CSTATE: CV <- IV, CTW <- [0, 0x7000000000000000], BUF zero, BCNT 0, READY, ERR NONE;
nothing else changes (R100). -/
def Obligations.CtxInitCompletes : Prop :=
  ∀ s : State,
    exec .ctxInit s = .next { s with regs := { s.regs with
      err := .noError,
      ctx := {
        cv := ⟨0xFC9DA860D048B449#64, 0x2FCA66479FA7D833#64, 0xB33BC3896656840F#64, 0x6A54E920FDE8DA69#64⟩,
        ctw := ⟨0x0000000000000000#64, 0x7000000000000000#64⟩,
        buf := Vector.replicate 32 0, bcnt := 0, cstate := .ready } } }

/-- CTX_INIT_CFG completes in every CSTATE, and the state it leaves is bit for bit the one CTX_INIT leaves, because
the configuration pass gives the IV (R101, R92). -/
def Obligations.CtxInitCfgLeavesWhatCtxInitLeaves : Prop :=
  ∀ s : State,
    exec .ctxInitCfg s = exec .ctxInit s ∧
    ∃ t, exec .ctxInitCfg s = .next t ∧ t.regs.ctx.cstate = .ready ∧ t.regs.err = .noError ∧
      t.regs.ctx.cv = ⟨0xFC9DA860D048B449#64, 0x2FCA66479FA7D833#64, 0xB33BC3896656840F#64, 0x6A54E920FDE8DA69#64⟩

/-- CTX_UPDATE without a flush: in READY with BCNT + n <= 32, lanes 0 to n-1 of DIN follow the buffered bytes and BCNT
grows by n; the other bytes of BUF, CV, CTW, CSTATE and every other register are unchanged (R98, R102). -/
def Obligations.CtxUpdateBuffersBytes : Prop :=
  ∀ (s : State) (n : Nat), n ≤ 8 → s.regs.ctx.cstate = .ready → s.regs.ctx.bcnt.val + n ≤ 32 →
    ∃ (buf' : Bytes32) (bcnt' : Fin 33),
      bcnt'.val = s.regs.ctx.bcnt.val + n ∧
      (∀ (j : Fin 32) (i : Nat), i < n → j.val = s.regs.ctx.bcnt.val + i →
        buf'[j] = s.regs.din.extractLsb' (8 * i) 8) ∧
      (∀ j : Fin 32, j.val < s.regs.ctx.bcnt.val ∨ s.regs.ctx.bcnt.val + n ≤ j.val → buf'[j] = s.regs.ctx.buf[j]) ∧
      exec (.ctxUpdate n) s = .next { s with regs := { s.regs with
        err := .noError, ctx := { s.regs.ctx with buf := buf', bcnt := bcnt' } } }

/-- CTX_UPDATE with a flush: in READY with BCNT + n > 32, the block of the BCNT buffered bytes and the first 32 - BCNT
lanes is processed as one non-final UBI block of 32 bytes, the remaining lanes become BUF[0..], zero padded, and BCNT
becomes BCNT + n - 32 (R98, R102). -/
def Obligations.CtxUpdateFlushesOneBlock : Prop :=
  ∀ (s : State) (n : Nat), n ≤ 8 → s.regs.ctx.cstate = .ready → 32 < s.regs.ctx.bcnt.val + n →
    ∃ (block buf' : Bytes32) (bcnt' : Fin 33),
      (∀ j : Fin 32, block[j] = if j.val < s.regs.ctx.bcnt.val then s.regs.ctx.buf[j]
        else s.regs.din.extractLsb' (8 * (j.val - s.regs.ctx.bcnt.val)) 8) ∧
      bcnt'.val = s.regs.ctx.bcnt.val + n - 32 ∧
      (∀ j : Fin 32, buf'[j] = if j.val < bcnt'.val
        then s.regs.din.extractLsb' (8 * (32 - s.regs.ctx.bcnt.val + j.val)) 8 else 0) ∧
      exec (.ctxUpdate n) s = .next { s with regs := { s.regs with
        err := .noError,
        ctx := { s.regs.ctx with
          cv := (ubiBlock s.regs.ctx.cv s.regs.ctx.ctw block 32 false).1,
          ctw := (ubiBlock s.regs.ctx.cv s.regs.ctx.ctw block 32 false).2,
          buf := buf', bcnt := bcnt' } } }

/-- CTX_UPDATE ignores lanes n to 7 of DIN: two values of DIN that agree on lanes 0 to n-1 leave the same context and
the same ERR, in every CSTATE (10_state.md R23; 93 U14). -/
def Obligations.CtxUpdateIgnoresLanesPastLen : Prop :=
  ∀ (s : State) (din' : Word64) (n : Nat), n ≤ 8 →
    (∀ j, j < n → s.regs.din.extractLsb' (8 * j) 8 = din'.extractLsb' (8 * j) 8) →
    ∃ t t', exec (.ctxUpdate n) s = .next t ∧
      exec (.ctxUpdate n) { s with regs := { s.regs with din := din' } } = .next t' ∧
      t'.regs = { t.regs with din := din' }

/-- CTX_FINAL in READY: the last message block with n = BCNT and final set, then the output block over eight zero bytes
under `mkTweak(OUT, 1, 1)`; RES and CV receive its result, CTW the message tweak, BUF is cleared, BCNT 0, FINALIZED, ERR
NONE; nothing else changes (R103). -/
def Obligations.CtxFinalCompletes : Prop :=
  ∀ s : State, s.regs.ctx.cstate = .ready →
    let c := s.regs.ctx
    let last := ubiBlock c.cv c.ctw c.buf c.bcnt.val true
    let g2 := (ubiBlock last.1 ⟨0x0000000000000000#64, 0xFF00000000000000#64⟩ (Vector.replicate 32 0) 8 true).1
    exec .ctxFinal s = .next { s with regs := { s.regs with
      res := g2, err := .noError,
      ctx := { cv := g2, ctw := last.2, buf := Vector.replicate 32 0, bcnt := 0, cstate := .finalized } } }

/-- Streaming equivalence, the context: absorbing chunks one after another from CTX_INIT leaves a context that is a
function of their concatenation alone, the one R99 describes (R98, R99). -/
def Obligations.StreamingDependsOnConcatenationOnly : Prop :=
  ∀ chunks : List (List Byte), chunks.foldl absorb (newContext iv) = contextAfter chunks.flatten

/-- What R99 says of that context for a message of L > 0 bytes, with k' = (L-1) div 32: blocks 0 to k'-1 have been
flushed, each with n = 32 and no final flag, from the IV and the MSG tweak (`g` and `tw` after each); BCNT = L - 32k'
lies in 1 to 32; BUF holds the last BCNT bytes zero-padded; CTW has position 32k', type MSG, final 0, and first 1
exactly when k' = 0 (R99). -/
def Obligations.StreamedContextFields : Prop :=
  ∀ m : List Byte, m ≠ [] →
    let k := (m.length - 1) / 32
    let c := contextAfter m
    (∃ (g : Nat → Word256) (tw : Nat → Tweak128),
      g 0 = iv ∧ tw 0 = ⟨0x0000000000000000#64, 0x7000000000000000#64⟩ ∧
      (∀ j, j < k → (blockBytes m j).length = 32 ∧
        (g (j + 1), tw (j + 1)) = ubiBlock (g j) (tw j) (pad32 (blockBytes m j) 32) 32 false) ∧
      c.cv = g k ∧ c.ctw = tw k) ∧
    c.cstate = .ready ∧
    c.bcnt.val = m.length - 32 * k ∧ 1 ≤ c.bcnt.val ∧ c.bcnt.val ≤ 32 ∧
    (∀ j : Fin 32, c.buf[j] = if j.val < c.bcnt.val then m.getD (32 * k + j.val) 0 else 0) ∧
    getPos c.ctw = BitVec.ofNat 96 (32 * k) ∧ getType c.ctw = msgType ∧ getFinal c.ctw = false ∧
    (getFirst c.ctw = true ↔ k = 0)

/-- Streaming equivalence, the digest: in a state whose context holds the message `m`, CTX_FINAL completes and
`W2B(RES)` is `skein256(m)`, the one-shot hash, also for the empty message (R99, R96, R95). -/
def Obligations.StreamingDigestEqualsOneShot : Prop :=
  ∀ (s : State) (m : List Byte), s.regs.ctx = contextAfter m →
    ∃ t, exec .ctxFinal s = .next t ∧ w2b t.regs.res = skein256 m

/-- The context's lifecycle: init is accepted in every CSTATE and gives READY; CTX_UPDATE keeps READY and CTX_FINAL
takes READY to FINALIZED; outside READY both fail with InvalidState and change no register but ERR; TF_ENC and UBI_BLOCK
never change the context (R97). -/
def Obligations.ContextLifecycle : Prop :=
  ∀ s : State,
    (∃ t, exec .ctxInit s = .next t ∧ t.regs.ctx.cstate = .ready ∧ t.regs.err = .noError) ∧
    (∃ t, exec .ctxInitCfg s = .next t ∧ t.regs.ctx.cstate = .ready ∧ t.regs.err = .noError) ∧
    (∀ n, n ≤ 8 → s.regs.ctx.cstate = .ready →
      ∃ t, exec (.ctxUpdate n) s = .next t ∧ t.regs.ctx.cstate = .ready ∧ t.regs.err = .noError) ∧
    (s.regs.ctx.cstate = .ready →
      ∃ t, exec .ctxFinal s = .next t ∧ t.regs.ctx.cstate = .finalized ∧ t.regs.err = .noError) ∧
    (∀ n, n ≤ 8 → s.regs.ctx.cstate ≠ .ready →
      exec (.ctxUpdate n) s = .next { s with regs := { s.regs with err := .invalidState } }) ∧
    (s.regs.ctx.cstate ≠ .ready → exec .ctxFinal s = .next { s with regs := { s.regs with err := .invalidState } }) ∧
    (∃ t, exec .tfEnc s = .next t ∧ t.regs.ctx = s.regs.ctx) ∧
    (∀ n f, ∃ t, exec (.ubiBlock n f) s = .next t ∧ t.regs.ctx = s.regs.ctx)

/-! Errors (60_exceptions.md). -/

/-- IllegalCommand: a word written to CMD whose OP is none of the six, with a reserved bit set, with LEN out of range
for its opcode, or with FIN = 1 for an opcode other than UBI_BLOCK, changes STATUS.ERR to ILLEGAL_CMD and nothing else,
in every state; any other word does not report ILLEGAL_CMD (R107, R106). -/
def Obligations.IllegalWordsRaiseIllegalCommand : Prop :=
  ∀ (w : Word64) (s : State),
    let op := w.toNat % 2 ^ 8
    let len := w.toNat / 2 ^ 8 % 2 ^ 6
    let illegal :=
      (¬ (op = 0x01 ∨ op = 0x02 ∨ (0x10 ≤ op ∧ op ≤ 0x13))) ∨
      w.toNat / 2 ^ 14 % 2 ^ 2 ≠ 0 ∨ w.toNat / 2 ^ 17 ≠ 0 ∨
      ((op = 0x02 ∧ 32 < len) ∨ (op = 0x12 ∧ 8 < len) ∨ (op ≠ 0x02 ∧ op ≠ 0x12 ∧ len ≠ 0)) ∨
      (w.toNat / 2 ^ 16 % 2 = 1 ∧ op ≠ 0x02)
    (illegal → runWord w s = .next { s with regs := { s.regs with err := .illegalCmd } }) ∧
    (¬ illegal → ∃ t, runWord w s = .next t ∧ t.regs.err ≠ .illegalCmd)

/-- A command reports at most one error, legality first, then the context state, else its rule runs and reports NONE
(R109). -/
def Obligations.LegalityIsTestedBeforeContextState : Prop :=
  ∀ (w : Word64) (s : State),
    (legal w = false → runWord w s = .next { s with regs := { s.regs with err := .illegalCmd } }) ∧
    (legal w = true → (w.toNat % 2 ^ 8 = 0x12 ∨ w.toNat % 2 ^ 8 = 0x13) → s.regs.ctx.cstate ≠ .ready →
      runWord w s = .next { s with regs := { s.regs with err := .invalidState } }) ∧
    (legal w = true → ¬ ((w.toNat % 2 ^ 8 = 0x12 ∨ w.toNat % 2 ^ 8 = 0x13) ∧ s.regs.ctx.cstate ≠ .ready) →
      ∃ i t, decode w = .ok i ∧ runWord w s = exec i s ∧ exec i s = .next t ∧ t.regs.err = .noError)

/-- Every command completes with STATUS.ERR = NONE, or fails with a nonzero ERR and no other effect; none stops the
machine (R104, R106). -/
def Obligations.CommandCompletesOrFailsWithoutEffect : Prop :=
  ∀ (i : Instr) (s : State), ∃ t, exec i s = .next t ∧
    (t.regs.err = .noError ∨
      ((t.regs.err = .illegalCmd ∨ t.regs.err = .invalidState) ∧
        t = { s with regs := { s.regs with err := t.regs.err } }))

/-- ERR is not sticky: what a command does and reports does not depend on the ERR the last one left (R111). -/
def Obligations.ErrorIsNotSticky : Prop :=
  ∀ (i : Instr) (s : State) (e : ErrCode), exec i { s with regs := { s.regs with err := e } } = exec i s

/-! Frames (10_state.md R18). -/

/-- A command changes only the registers that R18's column "written by" gives it, every other register of the window
reading as before; a command that may not write the context leaves BCNT and CSTATE too; and nothing of the state but
the registers changes (R18). -/
def Obligations.CommandsWriteOnlyTheirRegisters : Prop :=
  ∀ (i : Instr) (s t : State), exec i s = .next t →
    t = { s with regs := t.regs } ∧
    (∀ r : Reg, commandWrites i r = false → readReg t r = readReg s r) ∧
    (commandWrites i (.cv 0) = false → t.regs.ctx = s.regs.ctx) ∧
    t.regs.blk = s.regs.blk ∧ t.regs.din = s.regs.din

/-- The context commands neither read nor write KEY, TWK and BLK, and do not read RES: with other values there they
leave the same context, DIN and ERR; RES keeps its value, but for CTX_FINAL in READY, which leaves the same digest (R19,
R20, R22, R101, R102, R103). -/
def Obligations.ContextCommandsIgnoreOperandRegisters : Prop :=
  ∀ (s : State) (key blk res : Word256) (twk : Tweak128) (i : Instr),
    (i = .ctxInit ∨ i = .ctxInitCfg ∨ (∃ n, i = .ctxUpdate n) ∨ i = .ctxFinal) →
    ∃ t t', exec i s = .next t ∧
      exec i { s with regs := { s.regs with key := key, twk := twk, blk := blk, res := res } } = .next t' ∧
      t'.regs = { t.regs with key := key, twk := twk, blk := blk, res := t'.regs.res } ∧
      t'.regs.res = if i = .ctxFinal ∧ s.regs.ctx.cstate = .ready then t.regs.res else res

/-- TF_ENC and UBI_BLOCK do not read the context or DIN: with another context and another DIN they leave the same KEY,
TWK and RES and the same ERR (42_skein_context.md R97; 40_threefish.md R82; 41_ubi.md R89). -/
def Obligations.CipherCommandsIgnoreContext : Prop :=
  ∀ (s : State) (c : Context) (d : Word64) (i : Instr),
    (i = .tfEnc ∨ ∃ n f, i = .ubiBlock n f) →
    ∃ t t', exec i s = .next t ∧
      exec i { s with regs := { s.regs with ctx := c, din := d } } = .next t' ∧
      t'.regs = { t.regs with ctx := c, din := d }

/-- Issuing TF_ENC twice gives the RES of once, and issuing CTX_INIT twice leaves the state of once (R82, R100). -/
def Obligations.RepeatedTfEncAndCtxInitChangeNothing : Prop :=
  ∀ s t : State,
    (exec .tfEnc s = .next t → exec .tfEnc t = .next t) ∧ (exec .ctxInit s = .next t → exec .ctxInit t = .next t)

/-! The register window (20_memory.md). -/

/-- A host read of a register outside the busy hazard returns its current value and has no effect on the block's
registers (R48, R50, R54, R56); a read of STATUS or ID does so wherever BUSY = 0 (R124).  Where R124 is taken to its
letter (`strictHazard`) the hazard reaches to the host's read of BUSY = 0; where it is not, this statement covers a read
before that: which of the two holds is a parameter (log 3, DESIGN CHOICE).  On the host's side the read is recorded (log
2), a read of STATUS tells it the end, and a read of another register but ID before that is noted as early (log 3). -/
def Obligations.HostReadReturnsRegister : Prop :=
  ∀ (s : State) (r : Reg) (rest : List Event),
    s.engine = none → (s.strictHazard = false ∨ s.unconfirmed = false ∨ r = .status ∨ r = .id) →
    s.script = .read (256 * s.basePage + (offsetOf r).toNat) 8 :: rest →
    step s = .next { s with
      script := rest,
      readLog := ⟨offsetOf r, readReg s r⟩ :: s.readLog,
      unconfirmed := if r = .status then false else s.unconfirmed,
      early := s.early || (s.unconfirmed && decide (r ≠ .status ∧ r ≠ .id)) }

/-- What the registers of the window read as: the words of KEY, TWK, BLK, RES, CV and CTW, DIN, the constant ID, the
buffer as four little-endian words, CMD as 0, and STATUS with BUSY, ERR, CSTATE and BCNT at the places R31 gives them
(R31, R33, R50). -/
def Obligations.RegistersReadAsTheirFields : Prop :=
  ∀ s : State,
    readReg s .cmd = 0 ∧ readReg s .id = 0x3635324E49454B53#64 ∧ readReg s .din = s.regs.din ∧
    (readReg s (.key 0) = s.regs.key.w0 ∧ readReg s (.key 1) = s.regs.key.w1 ∧
      readReg s (.key 2) = s.regs.key.w2 ∧ readReg s (.key 3) = s.regs.key.w3) ∧
    (readReg s (.twk 0) = s.regs.twk.t0 ∧ readReg s (.twk 1) = s.regs.twk.t1) ∧
    (readReg s (.blk 0) = s.regs.blk.w0 ∧ readReg s (.blk 1) = s.regs.blk.w1 ∧
      readReg s (.blk 2) = s.regs.blk.w2 ∧ readReg s (.blk 3) = s.regs.blk.w3) ∧
    (readReg s (.res 0) = s.regs.res.w0 ∧ readReg s (.res 1) = s.regs.res.w1 ∧
      readReg s (.res 2) = s.regs.res.w2 ∧ readReg s (.res 3) = s.regs.res.w3) ∧
    (readReg s (.cv 0) = s.regs.ctx.cv.w0 ∧ readReg s (.cv 1) = s.regs.ctx.cv.w1 ∧
      readReg s (.cv 2) = s.regs.ctx.cv.w2 ∧ readReg s (.cv 3) = s.regs.ctx.cv.w3) ∧
    (readReg s (.ctw 0) = s.regs.ctx.ctw.t0 ∧ readReg s (.ctw 1) = s.regs.ctx.ctw.t1) ∧
    (∀ i : Fin 4, readReg s (.cbuf i) = word (b2w s.regs.ctx.buf) i) ∧
    (readReg s .status).toNat =
      (if s.engine = none then 0 else 1)
        + 2 ^ 4 * (match s.regs.err with | .noError => 0 | .illegalCmd => 1 | .invalidState => 2)
        + 2 ^ 8 * (match s.regs.ctx.cstate with | .idle => 0 | .ready => 1 | .finalized => 2)
        + 2 ^ 16 * s.regs.ctx.bcnt.val

/-- A host write of a read-write register outside the busy hazard makes it read as the value written and changes no
other register and nothing else of the block (R51).  How far the hazard reaches past BUSY = 1 is a parameter,
`strictHazard`, and a write before the host has read BUSY = 0, where it does not, is noted as early on the host's side
(log 3, DESIGN CHOICE). -/
def Obligations.HostWriteReplacesOneRegister : Prop :=
  ∀ (s : State) (r : Reg) (v : Word64) (rest : List Event),
    hostMayWrite r = true → s.engine = none → (s.strictHazard = false ∨ s.unconfirmed = false) →
    s.script = .write (256 * s.basePage + (offsetOf r).toNat) 8 v :: rest →
    ∃ t, step s = .next t ∧ readReg t r = v ∧ (∀ r' : Reg, r' ≠ r → readReg t r' = readReg s r') ∧
      t = { s with script := rest, regs := t.regs, early := s.early || s.unconfirmed } ∧
      t.regs.ctx = s.regs.ctx ∧ t.regs.err = s.regs.err

/-- Outside the busy hazard, writes to a read-only register and to a reserved offset are ignored, and reads of CMD and
of a reserved offset return 0; none raises an error or changes ERR (R52).  How far the hazard reaches past BUSY = 1 is a
parameter, `strictHazard`, and such an access before the host has read BUSY = 0, where it does not, is noted as early on
the host's side (log 3, DESIGN CHOICE). -/
def Obligations.ReadOnlyAndReservedAccesses : Prop :=
  ∀ (s : State) (rest : List Event), s.engine = none → (s.strictHazard = false ∨ s.unconfirmed = false) →
    (∀ (r : Reg) (v : Word64), hostMayWrite r = false → r ≠ .cmd →
      s.script = .write (256 * s.basePage + (offsetOf r).toNat) 8 v :: rest →
      step s = .next { s with script := rest, early := s.early || s.unconfirmed }) ∧
    (∀ (off : Nat) (v : Word64), (off = 0xE0 ∨ off = 0xE8 ∨ off = 0xF0 ∨ off = 0xF8) →
      s.script = .write (256 * s.basePage + off) 8 v :: rest →
      step s = .next { s with script := rest, early := s.early || s.unconfirmed }) ∧
    (∀ off : Nat, (off = 0x00 ∨ off = 0xE0 ∨ off = 0xE8 ∨ off = 0xF0 ∨ off = 0xF8) →
      s.script = .read (256 * s.basePage + off) 8 :: rest →
      step s = .next { s with
        script := rest, readLog := ⟨BitVec.ofNat 8 off, 0⟩ :: s.readLog, early := s.early || s.unconfirmed })

/-- An access inside the window of another width than 64 bits, or at an offset that is no multiple of 8, faults (R53; 93
U3).  That it does so in the busy hazard too, before the fault of a write there, and that an access is judged by its
first byte, is the model's choice (log 10). -/
def Obligations.UnsupportedAccessFaults : Prop :=
  ∀ (s : State) (addr bytes : Nat) (v : Word64) (rest : List Event),
    256 * s.basePage ≤ addr → addr < 256 * s.basePage + 256 →
    (bytes ≠ 8 ∨ (addr - 256 * s.basePage) % 8 ≠ 0) →
    (s.script = .read addr bytes :: rest ∨ s.script = .write addr bytes v :: rest) →
    step s = .fault .unsupportedAccess

/-- The machine stops on exactly three kinds of host access: one of unsupported width or alignment inside the window
(R53), a supported write inside the window in the busy hazard (R124; 93 U2), and one outside the window, which the model
refuses (log 6, the model's choice); every other step has a next state (R104: no command stops it).  That BUSY is looked
at after the engine's part of the cycle is log 1's choice, that unsupported accesses come first log 10's, and that how
far the hazard reaches past BUSY = 1 is a parameter, `strictHazard`, log 3's. -/
def Obligations.StepStopsOnlyOnThreeHostAccesses : Prop :=
  ∀ s : State,
    let inside (a : Nat) : Prop := 256 * s.basePage ≤ a ∧ a < 256 * s.basePage + 256
    let head (e : Event) : Prop := s.script.head? = some e
    (step s = .fault .unsupportedAccess ↔
      ∃ a b, inside a ∧ (b ≠ 8 ∨ a % 8 ≠ 0) ∧ (head (.read a b) ∨ ∃ v, head (.write a b v))) ∧
    (step s = .fault .busyHazardWrite ↔
      ∃ a v, inside a ∧ a % 8 = 0 ∧ head (.write a 8 v) ∧
        ((∃ p, s.engine = some p ∧ 1 < p.cyclesLeft) ∨ (s.strictHazard = true ∧ s.unconfirmed = true))) ∧
    (step s = .refused .outsideWindow ↔ ∃ a b, ¬ inside a ∧ (head (.read a b) ∨ ∃ v, head (.write a b v))) ∧
    ((∃ t, step s = .next t) ∨ step s = .fault .unsupportedAccess ∨ step s = .fault .busyHazardWrite ∨
      step s = .refused .outsideWindow)

/-! The busy hazard, timing and reset (70_reset_and_hazards.md). -/

/-- A step runs the command written: outside the busy hazard, with a write of the word `w` to CMD at the head of the
host's list, BUSY becomes 1 and the command in flight takes the next latency, at least one cycle (R30, R32, R56, R130).
When `w` decodes to `i`, its result is that of `exec i` in the state past that write; when `w` is illegal, it is the
registers as they were with ERR = ILLEGAL_CMD (R106, R107).  The host has its end to read from then on (R124).  That a
step is one cycle is log 1's choice, that how far the hazard reaches past BUSY = 1 is a parameter, and how the host's
side is noted, log 3's, where the latency comes from log 4's, and that the registers stay until the result appears log
7's reading. -/
def Obligations.StepRunsDecodedCommand : Prop :=
  ∀ (s : State) (w : Word64) (rest : List Event),
    s.engine = none → (s.strictHazard = false ∨ s.unconfirmed = false) →
    s.script = .write (256 * s.basePage) 8 w :: rest →
    let launched (g : Regs) : State := { s with
      script := rest,
      engine := some ⟨s.latencies.headD 0 + 1, g⟩,
      unconfirmed := true,
      early := s.early || s.unconfirmed,
      latencies := s.latencies.tail }
    (∀ i, decode w = .ok i →
      ∃ t, exec i { s with script := rest } = .next t ∧ step s = .next (launched t.regs)) ∧
    (legal w = false → step s = .next (launched { s.regs with err := .illegalCmd }))

/-- The very next step of `withFetchWord` runs the word's command, from every state (R17, R30); the registers stay and
the result is held until the command completes (R56, read as log 7 says).  How a program is placed is log 1's choice,
where the latency comes from log 4's. -/
def Obligations.PlacedCommandRunsNext : Prop :=
  ∀ (s : State) (w : Word64) (i : Instr), decode w = .ok i →
    ∃ t u, exec i { s with engine := none, unconfirmed := false } = .next t ∧
      step (s.withFetchWord 64 w.toNat) = .next u ∧
      u.engine = some ⟨s.latencies.headD 0 + 1, t.regs⟩ ∧ u.regs = s.regs ∧ u.script = s.script

/-- A command in flight takes exactly its cycles: with no host access, BUSY stays 1 and the registers stay for all
cycles but the last, and at the last one the results appear all at once and BUSY returns to 0 (R126, R130; 20_memory.md
R56). That a run of k steps is k cycles is log 1's choice, that the registers stay until then log 7's reading. -/
def Obligations.CommandCompletesAfterItsLatency : Prop :=
  ∀ (s : State) (p : InFlight), s.engine = some p → s.script = [] → 1 ≤ p.cyclesLeft →
    (∀ k, k < p.cyclesLeft → ∃ t, Host.Core.run Sys2Proof.core k s = .next t ∧
      t.regs = s.regs ∧ (readReg t .status).getLsbD 0 = true) ∧
    Host.Core.run Sys2Proof.core p.cyclesLeft s = .next { s with regs := p.result, engine := none }

/-- Accesses in the busy hazard, once the engine's part of the cycle is done (log 1): while BUSY = 1 and, where R124 is
taken to its letter, until the host has read STATUS with BUSY = 0, a read of STATUS or ID returns its value, a read of
any other register or of a reserved offset returns a free value, no read changes a register, and every write, CMD
included, faults and so refutes the run (R124, R131; 93 U1, U2, U8).  The statement holds for every value of the free
value (log 5). R124 promises of STATUS only the current BUSY: what its other fields hold while BUSY = 1 is log 7's
reading; that reserved offsets count as any other register, that the reach past BUSY = 1 is a parameter, and what is
noted as early, is log 3's choice. -/
def Obligations.BusyHazardAccesses : Prop :=
  ∀ s : State, (s.engine ≠ none ∨ (s.strictHazard = true ∧ s.unconfirmed = true)) →
    let early' : Bool := s.early || (s.unconfirmed && decide (s.engine = none))
    (∀ r : Reg, (r = .status ∨ r = .id) →
      ∃ t, eventStep (.read (256 * s.basePage + (offsetOf r).toNat) 8) s = .next t ∧
        t.readLog = ⟨offsetOf r, readReg s r⟩ :: s.readLog ∧ t.regs = s.regs ∧ t.engine = s.engine ∧ t.early = s.early) ∧
    ((readReg s .status).getLsbD 0 = true ↔ s.engine ≠ none) ∧
    (∀ r : Reg, r ≠ .status → r ≠ .id →
      eventStep (.read (256 * s.basePage + (offsetOf r).toNat) 8) s = .next { s with
        readLog := ⟨offsetOf r, Config.busyRead s.draws⟩ :: s.readLog, draws := s.draws + 1, early := early' }) ∧
    (∀ (r : Reg) (v : Word64),
      eventStep (.write (256 * s.basePage + (offsetOf r).toNat) 8 v) s = .fault .busyHazardWrite) ∧
    (∀ (off : Nat) (v : Word64), (off = 0xE0 ∨ off = 0xE8 ∨ off = 0xF0 ∨ off = 0xF8) →
      eventStep (.read (256 * s.basePage + off) 8) s = .next { s with
        readLog := ⟨BitVec.ofNat 8 off, Config.busyRead s.draws⟩ :: s.readLog, draws := s.draws + 1, early := early' } ∧
      eventStep (.write (256 * s.basePage + off) 8 v) s = .fault .busyHazardWrite)

/-- The interval of R124 runs from a CMD write exactly until the host reads STATUS with BUSY = 0, by a read or by WAIT,
or the platform resets the block: a step ends it just then, and a plain read of STATUS in a cycle with BUSY = 0 does end
it (R124).  That a read in the cycle of completion sees BUSY = 0 is log 1's choice (engine first); that a reset ends the
interval, and that what falls in it past BUSY = 1 is decided by a parameter, is log 3's. -/
def Obligations.HazardLastsUntilIdleStatusRead : Prop :=
  ∀ s t : State, s.unconfirmed = true → step s = .next t →
    (t.unconfirmed = false ↔ (s.script.head? = some .reset ∨
      ∃ e, t.readLog = e :: s.readLog ∧ e.offset = 0x08#8 ∧ e.value.getLsbD 0 = false ∧ t.engine = none)) ∧
    (s.script.head? = some (.read (256 * s.basePage + 0x08) 8) → (∀ p, s.engine = some p → p.cyclesLeft ≤ 1) →
      t.unconfirmed = false ∧ t.early = s.early)

/-- WAIT is the loop of STATUS reads: while BUSY is 1 it reads STATUS and stays, and with BUSY = 0 it reads STATUS once,
the completed registers' with BUSY 0, and is done (30_encoding.md R67); the host has then read the end of the command
(R124, log 3).  One read a cycle is log 1's choice, the record log 2's, and what the read with BUSY = 1 shows of ERR,
CSTATE and BCNT log 7's reading. -/
def Obligations.WaitLoopsOnBusy : Prop :=
  ∀ (s : State) (rest : List Event), s.script = .wait :: rest →
    (∀ p, s.engine = some p → 1 < p.cyclesLeft →
      ∃ t, step s = .next t ∧ t.script = .wait :: rest ∧ t.regs = s.regs ∧
        t.readLog = ⟨0x08#8, statusWord true s.regs⟩ :: s.readLog ∧
        t.engine = some { p with cyclesLeft := p.cyclesLeft - 1 }) ∧
    (∀ p, s.engine = some p → p.cyclesLeft ≤ 1 →
      ∃ t, step s = .next t ∧ t.script = rest ∧ t.regs = p.result ∧ t.engine = none ∧ t.unconfirmed = false ∧
        t.readLog = ⟨0x08#8, statusWord false p.result⟩ :: s.readLog) ∧
    (s.engine = none → ∃ t, step s = .next t ∧ t.script = rest ∧ t.regs = s.regs ∧ t.engine = none ∧
      t.unconfirmed = false ∧ t.readLog = ⟨0x08#8, statusWord false s.regs⟩ :: s.readLog) ∧
    (∀ (b : Bool) (g : Regs), (statusWord b g).getLsbD 0 = b)

/-- After reset every register of the window reads 0 but ID, STATUS among them, the context is IDLE and no command is in
flight (R120). -/
def Obligations.ResetStateReadsZeroButId : Prop :=
  (∀ r : Reg, r ≠ .id → readReg State.reset r = 0) ∧ readReg State.reset .id = 0x3635324E49454B53#64 ∧
  State.reset.regs.ctx.cstate = .idle ∧ State.reset.regs.err = .noError ∧ State.reset.regs.ctx.bcnt = 0 ∧
  State.reset.engine = none

/-- A reset, also with a command in flight, leaves exactly the reset registers and no command: no partial result
survives (R121, R120).  That the reset takes the host's turn in the cycle is log 11's choice, that no command's end is
left for the host to read log 3's. -/
def Obligations.ResetAbandonsCommand : Prop :=
  ∀ (s : State) (rest : List Event), s.script = .reset :: rest →
    ∃ t, step s = .next t ∧ t.regs = State.reset.regs ∧ t.engine = none ∧ t.unconfirmed = false ∧ t.script = rest

/-! Invariants. -/

/-- The invariant holds after reset (10_state.md R29: "They hold at reset"). -/
def Obligations.InvariantHoldsAtReset : Prop := State.reset.Inv

/-- Every step keeps the invariant: the buffer is zero past BCNT, the context tweak keeps type MSG with its reserved
bits zero and its position a multiple of 32 while a message is absorbed, and a command in flight carries a sound result
(10_state.md R25, R26, R29; what the invariant leaves out of R29 is log 8). -/
def Obligations.StepKeepsInvariant : Prop :=
  ∀ s t : State, s.Inv → step s = .next t → t.Inv

/-- Every step keeps "a READY context holds a message", in the registers and in the result of a command in flight: the
context is always the one that absorbing some byte string leaves (42_skein_context.md R99). -/
def Obligations.StepKeepsReadyContextAMessage : Prop :=
  ∀ s t : State,
    (HoldsMessage s.regs.ctx ∧ ∀ p, s.engine = some p → HoldsMessage p.result.ctx) → step s = .next t →
    (HoldsMessage t.regs.ctx ∧ ∀ p, t.engine = some p → HoldsMessage p.result.ctx)

/-- A step never moves the window and never changes the reach of the hazard (log 3, a parameter), and the host's record
of reads (log 2) only grows, by at most one entry (20_memory.md R47, R50). -/
def Obligations.StepKeepsBaseAndRecord : Prop :=
  ∀ s t : State, step s = .next t →
    t.basePage = s.basePage ∧ t.strictHazard = s.strictHazard ∧
      (t.readLog = s.readLog ∨ ∃ e, t.readLog = e :: s.readLog)

/-! Host programs (30_encoding.md). -/

/-- `UPDATE m` is the list of the triples WR DIN, CTX_UPDATE n and WAIT, one for each chunk of 1 to 8 bytes in order;
the chunks together are `m` and their lengths add up to its length; DIN holds the chunk in its first lanes and zeros in
the others; for the empty byte string the list is empty (R69). -/
def Obligations.UpdateExpandsToChunks : Prop :=
  updateProgram [] = [] ∧
  ∀ m : List Byte,
    let n := (m.length + 7) / 8
    let chunk (i : Nat) : List Byte := (m.drop (8 * i)).take 8
    updateProgram m = ((List.range n).map fun i =>
      [Stmt.wr .din (le64 (chunk i) 0), .command (.ctxUpdate (chunk i).length), .wait]).flatten ∧
    (∀ i, i < n → ∀ d, (updateProgram m).getD (3 * i) d = .wr .din (le64 (chunk i) 0) ∧
      (updateProgram m).getD (3 * i + 1) d = .command (.ctxUpdate (chunk i).length) ∧
      (updateProgram m).getD (3 * i + 2) d = .wait) ∧
    (updateProgram m).length = 3 * n ∧
    ((List.range n).map chunk).flatten = m ∧ ((List.range n).map fun i => (chunk i).length).sum = m.length ∧
    ∀ i, i < n → 1 ≤ (chunk i).length ∧ (chunk i).length ≤ 8 ∧
      dinBytes (le64 (chunk i) 0) (chunk i).length = chunk i ∧
      ∀ j, (chunk i).length ≤ j → j < 8 → (le64 (chunk i) 0).extractLsb' (8 * j) 8 = 0

/-! Results at completion (20_memory.md R56). -/

/-- A host read in the very cycle in which a command completes sees its result: no latency comes after BUSY has returned
to 0 (20_memory.md R56, R50; 70_reset_and_hazards.md R126).  A read of STATUS or ID always does; a read of another
register does where the hazard is not taken to reach past BUSY = 1, and is then noted as early: that reach is a
parameter, `strictHazard` (log 3, DESIGN CHOICE), and where it is in force O50 says what the read gives.  That the
engine's part of a cycle comes first is log 1's choice. -/
def Obligations.ResultsVisibleWhenBusyReturnsToZero : Prop :=
  ∀ (s : State) (p : InFlight) (r : Reg) (rest : List Event),
    s.engine = some p → p.cyclesLeft ≤ 1 →
    (s.strictHazard = false ∨ s.unconfirmed = false ∨ r = .status ∨ r = .id) →
    s.script = .read (256 * s.basePage + (offsetOf r).toNat) 8 :: rest →
    ∃ t, step s = .next t ∧ t.regs = p.result ∧ t.engine = none ∧ t.script = rest ∧
      t.readLog = ⟨offsetOf r, readReg t r⟩ :: s.readLog ∧
      t.early = (s.early || (s.unconfirmed && decide (r ≠ .status ∧ r ≠ .id)))
end

