-- ==== Sys2Proof/Laws/Bytes.lean ====
section
/-! SUPPORT. Bits of concatenations, and what the byte operations give at one index. -/

namespace Sys2Proof.Machine

open Sys2Proof

theorem append_bit_lo {n m : Nat} (x : BitVec n) (y : BitVec m) (i j : Nat) (h : i = j) (hm : j < m) :
    (x ++ y).getLsbD i = y.getLsbD j := by subst h; rw [BitVec.getLsbD_append, if_pos hm]

theorem append_bit_hi {n m : Nat} (x : BitVec n) (y : BitVec m) (i j : Nat) (h : i = m + j) :
    (x ++ y).getLsbD i = x.getLsbD j := by
  subst h; rw [BitVec.getLsbD_append, if_neg (by omega)]; congr 1; omega

/-- The bits of `le64`, byte by byte. -/
theorem le64_bit (b : List Byte) (i j r : Nat) (hj : j < 8) (hr : r < 8) :
    (le64 b i).getLsbD (8 * j + r) = (b.getD (i + j) 0).getLsbD r := by
  unfold le64
  interval_cases j
  · exact append_bit_lo _ _ _ r (by omega) hr
  · exact (append_bit_hi _ _ _ (8 * 0 + r) (by omega)).trans <|
    (append_bit_lo _ _ _ r (by omega) hr)
  · exact (append_bit_hi _ _ _ (8 * 1 + r) (by omega)).trans <|
    (append_bit_hi _ _ _ (8 * 0 + r) (by omega)).trans <|
    (append_bit_lo _ _ _ r (by omega) hr)
  · exact (append_bit_hi _ _ _ (8 * 2 + r) (by omega)).trans <|
    (append_bit_hi _ _ _ (8 * 1 + r) (by omega)).trans <|
    (append_bit_hi _ _ _ (8 * 0 + r) (by omega)).trans <|
    (append_bit_lo _ _ _ r (by omega) hr)
  · exact (append_bit_hi _ _ _ (8 * 3 + r) (by omega)).trans <|
    (append_bit_hi _ _ _ (8 * 2 + r) (by omega)).trans <|
    (append_bit_hi _ _ _ (8 * 1 + r) (by omega)).trans <|
    (append_bit_hi _ _ _ (8 * 0 + r) (by omega)).trans <|
    (append_bit_lo _ _ _ r (by omega) hr)
  · exact (append_bit_hi _ _ _ (8 * 4 + r) (by omega)).trans <|
    (append_bit_hi _ _ _ (8 * 3 + r) (by omega)).trans <|
    (append_bit_hi _ _ _ (8 * 2 + r) (by omega)).trans <|
    (append_bit_hi _ _ _ (8 * 1 + r) (by omega)).trans <|
    (append_bit_hi _ _ _ (8 * 0 + r) (by omega)).trans <|
    (append_bit_lo _ _ _ r (by omega) hr)
  · exact (append_bit_hi _ _ _ (8 * 5 + r) (by omega)).trans <|
    (append_bit_hi _ _ _ (8 * 4 + r) (by omega)).trans <|
    (append_bit_hi _ _ _ (8 * 3 + r) (by omega)).trans <|
    (append_bit_hi _ _ _ (8 * 2 + r) (by omega)).trans <|
    (append_bit_hi _ _ _ (8 * 1 + r) (by omega)).trans <|
    (append_bit_hi _ _ _ (8 * 0 + r) (by omega)).trans <|
    (append_bit_lo _ _ _ r (by omega) hr)
  · exact (append_bit_hi _ _ _ (8 * 6 + r) (by omega)).trans <|
    (append_bit_hi _ _ _ (8 * 5 + r) (by omega)).trans <|
    (append_bit_hi _ _ _ (8 * 4 + r) (by omega)).trans <|
    (append_bit_hi _ _ _ (8 * 3 + r) (by omega)).trans <|
    (append_bit_hi _ _ _ (8 * 2 + r) (by omega)).trans <|
    (append_bit_hi _ _ _ (8 * 1 + r) (by omega)).trans <|
    (append_bit_hi _ _ _ r (by omega))

theorem byteLane_le64 (b : List Byte) (i j : Nat) (hj : j < 8) : byteLane (le64 b i) j = b.getD (i + j) 0 := by
  apply BitVec.eq_of_getLsbD_eq
  intro r hr
  simp only [byteLane, BitVec.getLsbD_extractLsb', hr, decide_true, Bool.true_and]
  exact le64_bit b i j r hj hr

/-- A word is its eight bytes. -/
theorem word64_ext (x y : Word64) (h : ∀ j, j < 8 → byteLane x j = byteLane y j) : x = y := by
  apply BitVec.eq_of_getLsbD_eq
  intro i hi
  have := congrArg (fun v => v.getLsbD (i % 8)) (h (i / 8) (by omega))
  simpa [byteLane, BitVec.getLsbD_extractLsb', Nat.mod_lt i (show 8 > 0 by decide),
    show 8 * (i / 8) + i % 8 = i by omega] using this

/-- A Word256 is its four words. -/
theorem word256_ext (w v : Word256) (h : ∀ i, word w i = word v i) : w = v := by
  have h0 := h 0
  have h1 := h 1
  have h2 := h 2
  have h3 := h 3
  cases w; cases v; simp_all [word]

theorem w2b_get (w : Word256) (k : Nat) (hk : k < 32) :
    (w2b w)[k] = byteLane (word w ⟨k / 8, by omega⟩) (k % 8) := by simp [w2b]

theorem word_b2w (b : Bytes32) (i : Fin 4) : word (b2w b) i = le64 b.toList (8 * i.val) := by fin_cases i <;> rfl

theorem pad32_get (b : List Byte) (n k : Nat) (hk : k < 32) :
    (pad32 b n)[k] = if k < n then b.getD k 0 else 0 := by simp [pad32]

theorem bufAppend_get (b : Bytes32) (c : Nat) (d : List Byte) (k : Nat) (hk : k < 32) :
    (bufAppend b c d)[k] = if c ≤ k ∧ k < c + d.length then d.getD (k - c) 0 else b[k] := by simp [bufAppend]

/-- `pad32` reads only the first `n` bytes. -/
theorem pad32_congr (n : Nat) (b b' : List Byte) (h : ∀ j, j < n → b.getD j 0 = b'.getD j 0) :
    pad32 b n = pad32 b' n := by
  ext k hk : 1
  rw [pad32_get _ _ _ hk, pad32_get _ _ _ hk]
  split
  · exact h k ‹_›
  · rfl

@[simp] theorem dinBytes_length (d : Word64) (n : Nat) : (dinBytes d n).length = n := by simp [dinBytes]

theorem dinBytes_getD (d : Word64) (n i : Nat) (h : i < n) : (dinBytes d n).getD i 0 = byteLane d i := by
  simp [dinBytes, h]

end Sys2Proof.Machine
end

