-- ==== Sys2Proof/Laws/State.lean ====
section
/-! SUPPORT. One lemma per field per update of the state, true by `rfl`. -/

namespace Sys2Proof.Machine

/-! `finish g s`: a command completes. -/

@[simp] theorem finish_key (g : Regs) (s : State) : (finish g s).regs.key = g.key := rfl
@[simp] theorem finish_twk (g : Regs) (s : State) : (finish g s).regs.twk = g.twk := rfl
@[simp] theorem finish_blk (g : Regs) (s : State) : (finish g s).regs.blk = g.blk := rfl
@[simp] theorem finish_res (g : Regs) (s : State) : (finish g s).regs.res = g.res := rfl
@[simp] theorem finish_din (g : Regs) (s : State) : (finish g s).regs.din = g.din := rfl
@[simp] theorem finish_err (g : Regs) (s : State) : (finish g s).regs.err = .noError := rfl
@[simp] theorem finish_ctx (g : Regs) (s : State) : (finish g s).regs.ctx = g.ctx := rfl
@[simp] theorem finish_engine (g : Regs) (s : State) : (finish g s).engine = s.engine := rfl
@[simp] theorem finish_unconfirmed (g : Regs) (s : State) : (finish g s).unconfirmed = s.unconfirmed := rfl
@[simp] theorem finish_early (g : Regs) (s : State) : (finish g s).early = s.early := rfl
@[simp] theorem finish_script (g : Regs) (s : State) : (finish g s).script = s.script := rfl
@[simp] theorem finish_readLog (g : Regs) (s : State) : (finish g s).readLog = s.readLog := rfl
@[simp] theorem finish_latencies (g : Regs) (s : State) : (finish g s).latencies = s.latencies := rfl
@[simp] theorem finish_draws (g : Regs) (s : State) : (finish g s).draws = s.draws := rfl
@[simp] theorem finish_basePage (g : Regs) (s : State) : (finish g s).basePage = s.basePage := rfl
@[simp] theorem finish_strictHazard (g : Regs) (s : State) : (finish g s).strictHazard = s.strictHazard := rfl

/-! `raiseError e s`: a command fails. -/

@[simp] theorem raiseError_key (e : ErrCode) (s : State) : (raiseError e s).regs.key = s.regs.key := rfl
@[simp] theorem raiseError_twk (e : ErrCode) (s : State) : (raiseError e s).regs.twk = s.regs.twk := rfl
@[simp] theorem raiseError_blk (e : ErrCode) (s : State) : (raiseError e s).regs.blk = s.regs.blk := rfl
@[simp] theorem raiseError_res (e : ErrCode) (s : State) : (raiseError e s).regs.res = s.regs.res := rfl
@[simp] theorem raiseError_din (e : ErrCode) (s : State) : (raiseError e s).regs.din = s.regs.din := rfl
@[simp] theorem raiseError_err (e : ErrCode) (s : State) : (raiseError e s).regs.err = e := rfl
@[simp] theorem raiseError_ctx (e : ErrCode) (s : State) : (raiseError e s).regs.ctx = s.regs.ctx := rfl
@[simp] theorem raiseError_engine (e : ErrCode) (s : State) : (raiseError e s).engine = s.engine := rfl
@[simp] theorem raiseError_unconfirmed (e : ErrCode) (s : State) : (raiseError e s).unconfirmed = s.unconfirmed := rfl
@[simp] theorem raiseError_early (e : ErrCode) (s : State) : (raiseError e s).early = s.early := rfl
@[simp] theorem raiseError_script (e : ErrCode) (s : State) : (raiseError e s).script = s.script := rfl
@[simp] theorem raiseError_readLog (e : ErrCode) (s : State) : (raiseError e s).readLog = s.readLog := rfl
@[simp] theorem raiseError_latencies (e : ErrCode) (s : State) : (raiseError e s).latencies = s.latencies := rfl
@[simp] theorem raiseError_draws (e : ErrCode) (s : State) : (raiseError e s).draws = s.draws := rfl
@[simp] theorem raiseError_basePage (e : ErrCode) (s : State) : (raiseError e s).basePage = s.basePage := rfl
@[simp] theorem raiseError_strictHazard (e : ErrCode) (s : State) : (raiseError e s).strictHazard = s.strictHazard := rfl

/-! `launch s t`: a command starts. -/

@[simp] theorem launch_regs (s t : State) : (launch s t).regs = s.regs := rfl
@[simp] theorem launch_engine (s t : State) : (launch s t).engine = some ⟨nextLatency s, t.regs⟩ := rfl
@[simp] theorem launch_unconfirmed (s t : State) : (launch s t).unconfirmed = true := rfl
@[simp] theorem launch_early (s t : State) : (launch s t).early = (s.early || s.unconfirmed) := rfl
@[simp] theorem launch_script (s t : State) : (launch s t).script = s.script := rfl
@[simp] theorem launch_readLog (s t : State) : (launch s t).readLog = s.readLog := rfl
@[simp] theorem launch_latencies (s t : State) : (launch s t).latencies = s.latencies.tail := rfl
@[simp] theorem launch_draws (s t : State) : (launch s t).draws = s.draws := rfl
@[simp] theorem launch_basePage (s t : State) : (launch s t).basePage = s.basePage := rfl
@[simp] theorem launch_strictHazard (s t : State) : (launch s t).strictHazard = s.strictHazard := rfl

/-! `readStep off s`: a host read. -/

@[simp] theorem readStep_regs (o : BitVec 8) (s : State) : (readStep o s).regs = s.regs := rfl
@[simp] theorem readStep_engine (o : BitVec 8) (s : State) : (readStep o s).engine = s.engine := rfl
@[simp] theorem readStep_script (o : BitVec 8) (s : State) : (readStep o s).script = s.script := rfl
@[simp] theorem readStep_readLog (o : BitVec 8) (s : State) :
    (readStep o s).readLog = ⟨o, readValue s o⟩ :: s.readLog := rfl
@[simp] theorem readStep_early (o : BitVec 8) (s : State) :
    (readStep o s).early = (s.early || (s.unconfirmed && !busy s && !definedInHazard o)) := rfl
@[simp] theorem readStep_latencies (o : BitVec 8) (s : State) : (readStep o s).latencies = s.latencies := rfl
@[simp] theorem readStep_basePage (o : BitVec 8) (s : State) : (readStep o s).basePage = s.basePage := rfl
@[simp] theorem readStep_strictHazard (o : BitVec 8) (s : State) : (readStep o s).strictHazard = s.strictHazard := rfl

/-! `writtenState g s`: a host write that starts no command. -/

@[simp] theorem writtenState_regs (g : Regs) (s : State) : (writtenState g s).regs = g := rfl
@[simp] theorem writtenState_engine (g : Regs) (s : State) : (writtenState g s).engine = s.engine := rfl
@[simp] theorem writtenState_unconfirmed (g : Regs) (s : State) : (writtenState g s).unconfirmed = s.unconfirmed := rfl
@[simp] theorem writtenState_early (g : Regs) (s : State) : (writtenState g s).early = (s.early || s.unconfirmed) := rfl
@[simp] theorem writtenState_script (g : Regs) (s : State) : (writtenState g s).script = s.script := rfl
@[simp] theorem writtenState_readLog (g : Regs) (s : State) : (writtenState g s).readLog = s.readLog := rfl
@[simp] theorem writtenState_latencies (g : Regs) (s : State) : (writtenState g s).latencies = s.latencies := rfl
@[simp] theorem writtenState_draws (g : Regs) (s : State) : (writtenState g s).draws = s.draws := rfl
@[simp] theorem writtenState_basePage (g : Regs) (s : State) : (writtenState g s).basePage = s.basePage := rfl
@[simp] theorem writtenState_strictHazard (g : Regs) (s : State) : (writtenState g s).strictHazard = s.strictHazard := rfl

/-! `resetStep s`: the platform resets the block. -/

@[simp] theorem resetStep_regs (s : State) : (resetStep s).regs = Regs.reset := rfl
@[simp] theorem resetStep_engine (s : State) : (resetStep s).engine = none := rfl
@[simp] theorem resetStep_unconfirmed (s : State) : (resetStep s).unconfirmed = false := rfl
@[simp] theorem resetStep_early (s : State) : (resetStep s).early = s.early := rfl
@[simp] theorem resetStep_script (s : State) : (resetStep s).script = s.script := rfl
@[simp] theorem resetStep_readLog (s : State) : (resetStep s).readLog = s.readLog := rfl
@[simp] theorem resetStep_latencies (s : State) : (resetStep s).latencies = s.latencies := rfl
@[simp] theorem resetStep_draws (s : State) : (resetStep s).draws = s.draws := rfl
@[simp] theorem resetStep_basePage (s : State) : (resetStep s).basePage = s.basePage := rfl
@[simp] theorem resetStep_strictHazard (s : State) : (resetStep s).strictHazard = s.strictHazard := rfl

/-! `waitStep s`: one read of the WAIT loop. -/

@[simp] theorem waitStep_regs (s : State) : (waitStep s).regs = s.regs := by unfold waitStep; dsimp only; split <;> rfl
@[simp] theorem waitStep_engine (s : State) : (waitStep s).engine = s.engine := by
  unfold waitStep; dsimp only; split <;> rfl
@[simp] theorem waitStep_basePage (s : State) : (waitStep s).basePage = s.basePage := by
  unfold waitStep; dsimp only; split <;> rfl
@[simp] theorem waitStep_strictHazard (s : State) : (waitStep s).strictHazard = s.strictHazard := by
  unfold waitStep; dsimp only; split <;> rfl
@[simp] theorem waitStep_readLog (s : State) :
    (waitStep s).readLog = ⟨offsetOf .status, readValue s (offsetOf .status)⟩ :: s.readLog := by
  unfold waitStep; dsimp only; split <;> rfl

/-! `engineStep s`: the engine's part of a cycle. -/

theorem engineStep_idle (s : State) (h : s.engine = none) : engineStep s = s := by simp only [engineStep, h]
theorem engineStep_last (s : State) (p : InFlight) (h : s.engine = some p) (hp : p.cyclesLeft ≤ 1) :
    engineStep s = { s with regs := p.result, engine := none } := by simp only [engineStep, h, if_pos hp]
theorem engineStep_running (s : State) (p : InFlight) (h : s.engine = some p) (hp : 1 < p.cyclesLeft) :
    engineStep s = { s with engine := some { p with cyclesLeft := p.cyclesLeft - 1 } } := by
  simp only [engineStep, h, if_neg (Nat.not_le.2 hp)]

@[simp] theorem engineStep_script (s : State) : (engineStep s).script = s.script := by
  unfold engineStep; split <;> [rfl; (split <;> rfl)]
@[simp] theorem engineStep_unconfirmed (s : State) : (engineStep s).unconfirmed = s.unconfirmed := by
  unfold engineStep; split <;> [rfl; (split <;> rfl)]
@[simp] theorem engineStep_early (s : State) : (engineStep s).early = s.early := by
  unfold engineStep; split <;> [rfl; (split <;> rfl)]
@[simp] theorem engineStep_readLog (s : State) : (engineStep s).readLog = s.readLog := by
  unfold engineStep; split <;> [rfl; (split <;> rfl)]
@[simp] theorem engineStep_latencies (s : State) : (engineStep s).latencies = s.latencies := by
  unfold engineStep; split <;> [rfl; (split <;> rfl)]
@[simp] theorem engineStep_draws (s : State) : (engineStep s).draws = s.draws := by
  unfold engineStep; split <;> [rfl; (split <;> rfl)]
@[simp] theorem engineStep_basePage (s : State) : (engineStep s).basePage = s.basePage := by
  unfold engineStep; split <;> [rfl; (split <;> rfl)]
@[simp] theorem engineStep_strictHazard (s : State) : (engineStep s).strictHazard = s.strictHazard := by
  unfold engineStep; split <;> [rfl; (split <;> rfl)]

/-! `placeCommand w s`: the next access writes CMD. -/

@[simp] theorem placeCommand_regs (w : Sys2Proof.Word64) (s : State) : (placeCommand w s).regs = s.regs := rfl
@[simp] theorem placeCommand_engine (w : Sys2Proof.Word64) (s : State) : (placeCommand w s).engine = none := rfl
@[simp] theorem placeCommand_unconfirmed (w : Sys2Proof.Word64) (s : State) :
    (placeCommand w s).unconfirmed = false := rfl
@[simp] theorem placeCommand_early (w : Sys2Proof.Word64) (s : State) : (placeCommand w s).early = s.early := rfl
@[simp] theorem placeCommand_script (w : Sys2Proof.Word64) (s : State) :
    (placeCommand w s).script = .write (base s) 8 w :: s.script := rfl
@[simp] theorem placeCommand_latencies (w : Sys2Proof.Word64) (s : State) :
    (placeCommand w s).latencies = s.latencies := rfl
@[simp] theorem placeCommand_basePage (w : Sys2Proof.Word64) (s : State) :
    (placeCommand w s).basePage = s.basePage := rfl
@[simp] theorem placeCommand_strictHazard (w : Sys2Proof.Word64) (s : State) :
    (placeCommand w s).strictHazard = s.strictHazard := rfl

end Sys2Proof.Machine
end

