-- ==== Sys2Proof/Laws/Exec.lean ====
section
/-! SUPPORT. What a command can do, once: its equation by constructor, the shape of its next state, and `absorb` by
cases.  Later proofs cite these and never unfold a meaning, so that the cipher stays folded. -/

namespace Sys2Proof.Machine

open Sys2Proof

theorem next_injective {s t : State} (h : (.next s : Host.Outcome State Fault Refusal) = .next t) : s = t := by
  injection h

/-! The equation of each command. -/

theorem exec_tfEnc (s : State) :
    exec .tfEnc s = .next (finish { s.regs with res := threefish s.regs.key s.regs.twk s.regs.blk } s) := rfl

theorem exec_ubiBlock_illegal (n : Nat) (f : Bool) (s : State) (h : 32 < n) :
    exec (.ubiBlock n f) s = .next (raiseError .illegalCmd s) := by simp only [exec, execUbiBlock, if_pos h]

theorem exec_ubiBlock (n : Nat) (f : Bool) (s : State) (h : n ≤ 32) :
    exec (.ubiBlock n f) s = .next (finish { s.regs with
      key := (ubiBlock s.regs.key s.regs.twk (blkBytes s.regs) n f).1,
      res := (ubiBlock s.regs.key s.regs.twk (blkBytes s.regs) n f).1,
      twk := (ubiBlock s.regs.key s.regs.twk (blkBytes s.regs) n f).2 } s) := by
  simp only [exec, execUbiBlock, if_neg (Nat.not_lt.2 h)]

theorem exec_ctxInit (s : State) : exec .ctxInit s = .next (finish { s.regs with ctx := newContext iv } s) := rfl

theorem exec_ctxInitCfg (s : State) :
    exec .ctxInitCfg s = .next (finish { s.regs with ctx := newContext configPass } s) := rfl

theorem exec_ctxUpdate_illegal (n : Nat) (s : State) (h : 8 < n) :
    exec (.ctxUpdate n) s = .next (raiseError .illegalCmd s) := by simp only [exec, execCtxUpdate, if_pos h]

theorem exec_ctxUpdate_invalid (n : Nat) (s : State) (h : n ≤ 8) (hc : s.regs.ctx.cstate ≠ .ready) :
    exec (.ctxUpdate n) s = .next (raiseError .invalidState s) := by
  simp only [exec, execCtxUpdate, if_neg (Nat.not_lt.2 h), if_pos hc]

theorem exec_ctxUpdate (n : Nat) (s : State) (h : n ≤ 8) (hc : s.regs.ctx.cstate = .ready) :
    exec (.ctxUpdate n) s =
      .next (finish { s.regs with ctx := absorb s.regs.ctx (dinBytes s.regs.din n) } s) := by
  simp only [exec, execCtxUpdate, if_neg (Nat.not_lt.2 h), hc, ne_eq, not_true, if_false]

theorem exec_ctxFinal_invalid (s : State) (hc : s.regs.ctx.cstate ≠ .ready) :
    exec .ctxFinal s = .next (raiseError .invalidState s) := by simp only [exec, execCtxFinal, if_pos hc]

theorem exec_ctxFinal (s : State) (hc : s.regs.ctx.cstate = .ready) :
    exec .ctxFinal s = .next (finish { s.regs with
      res := outputBlock (finalBlock s.regs.ctx).1, ctx := closedContext s.regs.ctx } s) := by
  simp only [exec, execCtxFinal, hc, ne_eq, not_true, if_false]

/-! The shape of a command's next state: an error, or one of four completions. -/

/-- What a command's next state can be.  The values computed by the cipher are variables, so a proof by cases over
this never unfolds it; the context is one of the four a command can leave. -/
inductive ExecShape (i : Instr) (s : State) : State → Prop where
  | error (e : ErrCode) (he : e ≠ .noError) (hi : i ≠ .tfEnc ∧ i ≠ .ctxInit ∧ i ≠ .ctxInitCfg) :
      ExecShape i s (raiseError e s)
  | cipher (r : Word256) (hi : i = .tfEnc) : ExecShape i s (finish { s.regs with res := r } s)
  | block (g : Word256) (t : Tweak128) (n : Nat) (f : Bool) (hi : i = .ubiBlock n f) :
      ExecShape i s (finish { s.regs with key := g, res := g, twk := t } s)
  | init (cv : Word256) (hv : cv = iv ∨ cv = configPass) (hi : i = .ctxInit ∨ i = .ctxInitCfg) :
      ExecShape i s (finish { s.regs with ctx := newContext cv } s)
  | update (c : Context) (n : Nat) (hi : i = .ctxUpdate n) (hr : s.regs.ctx.cstate = .ready)
      (hc : c = absorb s.regs.ctx (dinBytes s.regs.din n)) : ExecShape i s (finish { s.regs with ctx := c } s)
  | final (r : Word256) (c : Context) (hi : i = .ctxFinal) (hr : s.regs.ctx.cstate = .ready)
      (hc : c = closedContext s.regs.ctx) : ExecShape i s (finish { s.regs with res := r, ctx := c } s)

theorem exec_shape (i : Instr) (s : State) : ∃ t, exec i s = .next t ∧ ExecShape i s t := by
  cases i with
  | tfEnc => exact ⟨_, exec_tfEnc s, .cipher _ rfl⟩
  | ubiBlock n f =>
    by_cases h : 32 < n
    · exact ⟨_, exec_ubiBlock_illegal n f s h, .error _ (by decide) (by simp)⟩
    · exact ⟨_, exec_ubiBlock n f s (Nat.not_lt.1 h), .block _ _ n f rfl⟩
  | ctxInit => exact ⟨_, exec_ctxInit s, .init _ (.inl rfl) (.inl rfl)⟩
  | ctxInitCfg => exact ⟨_, exec_ctxInitCfg s, .init _ (.inr rfl) (.inr rfl)⟩
  | ctxUpdate n =>
    by_cases h : 8 < n
    · exact ⟨_, exec_ctxUpdate_illegal n s h, .error _ (by decide) (by simp)⟩
    by_cases hr : s.regs.ctx.cstate = .ready
    · exact ⟨_, exec_ctxUpdate n s (Nat.not_lt.1 h) hr, .update _ n rfl hr rfl⟩
    · exact ⟨_, exec_ctxUpdate_invalid n s (Nat.not_lt.1 h) hr, .error _ (by decide) (by simp)⟩
  | ctxFinal =>
    by_cases hr : s.regs.ctx.cstate = .ready
    · exact ⟨_, exec_ctxFinal s hr, .final _ _ rfl hr rfl⟩
    · exact ⟨_, exec_ctxFinal_invalid s hr, .error _ (by decide) (by simp)⟩

theorem shape_of_exec {i : Instr} {s t : State} (h : exec i s = .next t) : ExecShape i s t := by
  obtain ⟨u, hu, hs⟩ := exec_shape i s
  rw [next_injective (h.symm.trans hu)]
  exact hs

/-- A command word runs its command, or reports ILLEGAL_CMD. -/
theorem runWord_of_ok {w : Word64} {i : Instr} (s : State) (h : decode w = .ok i) : runWord w s = exec i s := by
  simp only [runWord, h]

theorem runWord_of_error {w : Word64} {e : DecodeError} (s : State) (h : decode w = .error e) :
    runWord w s = .next (raiseError .illegalCmd s) := by simp only [runWord, h]

theorem runWord_cases (w : Word64) (s : State) :
    (∃ e, decode w = .error e ∧ runWord w s = .next (raiseError .illegalCmd s)) ∨
      ∃ i t, decode w = .ok i ∧ runWord w s = .next t ∧ ExecShape i s t := by
  cases h : decode w with
  | error e => exact .inl ⟨e, rfl, runWord_of_error s h⟩
  | ok i =>
    obtain ⟨t, ht, hs⟩ := exec_shape i s
    exact .inr ⟨i, t, rfl, (runWord_of_ok s h).trans ht, hs⟩

/-! `absorb` by cases (42_skein_context.md R98). -/

theorem absorb_nil (c : Context) : absorb c [] = c := by simp [absorb]

theorem absorb_small (c : Context) (d : List Byte) (h0 : d.length ≠ 0) (h : c.bcnt.val + d.length ≤ 32) :
    absorb c d =
      { c with buf := bufAppend c.buf c.bcnt.val d, bcnt := ⟨c.bcnt.val + d.length, by omega⟩ } := by
  rw [absorb, if_neg h0, dif_pos h]

theorem absorb_flush (c : Context) (d : List Byte) (h : 32 < c.bcnt.val + d.length) :
    absorb c d = absorbFlush c d := by
  have := c.bcnt.isLt
  rw [absorb, if_neg (by omega), dif_neg (by omega)]

@[simp] theorem absorb_cstate (c : Context) (d : List Byte) : (absorb c d).cstate = c.cstate := by
  unfold absorb
  split <;> [rfl; (split <;> rfl)]

theorem context_ext (c d : Context) (h1 : c.cv = d.cv) (h2 : c.ctw = d.ctw)
    (h3 : ∀ k (hk : k < 32), c.buf[k] = d.buf[k]) (h4 : c.bcnt.val = d.bcnt.val) (h5 : c.cstate = d.cstate) : c = d := by
  cases c
  cases d
  simp at *
  refine ⟨h1, h2, ?_, Fin.ext h4, h5⟩
  ext k hk : 1
  exact h3 k hk

end Sys2Proof.Machine
end

