-- ==== Sys2Proof/Laws/PerInstr.lean ====
section
/-! SUPPORT. Families of statements over all instructions, one lemma per constructor. -/

namespace Sys2Proof.Laws.OpcodeField

/-- The encoding of a well-formed instruction carries its opcode in OP and zeros in the reserved bits (30_encoding.md
R61, R63). -/
def Statement (i : Sys2Proof.Instr) : Prop :=
  i.wf = true → Sys2Proof.opField (Sys2Proof.encode i) = i.opcode ∧ Sys2Proof.rsvField (Sys2Proof.encode i) = 0

theorem tfEnc : Statement .tfEnc := by unfold Statement; decide

theorem ubiBlock (len : Nat) (fin : Bool) : Statement (.ubiBlock len fin) := by
  intro h
  have h : len ≤ 32 := by simpa [Instr.wf] using h
  interval_cases len <;> cases fin <;> decide

theorem ctxInit : Statement .ctxInit := by unfold Statement; decide

theorem ctxInitCfg : Statement .ctxInitCfg := by unfold Statement; decide

theorem ctxUpdate (len : Nat) : Statement (.ctxUpdate len) := by
  intro h
  have h : len ≤ 8 := by simpa [Instr.wf] using h
  interval_cases len <;> decide

theorem ctxFinal : Statement .ctxFinal := by unfold Statement; decide

end Sys2Proof.Laws.OpcodeField
end

