-- ==== Sys2Proof/Laws/Tweaks.lean ====
section
/-! SUPPORT. What each tweak operation leaves of the tweak, as numbers and bit by bit. -/

namespace Sys2Proof.Machine

open Sys2Proof

theorem getPos_toNat (t : Tweak128) : (getPos t).toNat = t.t0.toNat + 2 ^ 64 * (t.t1.toNat % 2 ^ 32) := by
  refine (BitVec.toNat_append (t.t1.extractLsb' 0 32) t.t0).trans ?_
  rw [← Nat.shiftLeft_add_eq_or_of_lt t.t0.isLt]
  simp [Nat.shiftLeft_eq]
  omega

theorem setPos_t0_toNat (t : Tweak128) (p : BitVec 96) : (setPos t p).t0.toNat = p.toNat % 2 ^ 64 := by simp [setPos]

theorem setPos_t1_toNat (t : Tweak128) (p : BitVec 96) :
    (setPos t p).t1.toNat = t.t1.toNat / 2 ^ 32 * 2 ^ 32 + p.toNat / 2 ^ 64 := by
  have := p.isLt
  have := t.t1.isLt
  refine (BitVec.toNat_append (t.t1.extractLsb' 32 32) (p.extractLsb' 64 32)).trans ?_
  rw [← Nat.shiftLeft_add_eq_or_of_lt (by exact (p.extractLsb' 64 32).isLt)]
  simp [Nat.shiftLeft_eq, Nat.shiftRight_eq_div_pow]
  omega

theorem getPos_setPos (t : Tweak128) (p : BitVec 96) : getPos (setPos t p) = p := by
  apply BitVec.eq_of_toNat_eq
  rw [getPos_toNat, setPos_t0_toNat, setPos_t1_toNat]
  have := p.isLt
  omega

theorem setPos_getPos (t : Tweak128) : setPos t (getPos t) = t := by
  have h0 : (setPos t (getPos t)).t0 = t.t0 := by
    apply BitVec.eq_of_toNat_eq; rw [setPos_t0_toNat, getPos_toNat]; have := t.t0.isLt; omega
  have h1 : (setPos t (getPos t)).t1 = t.t1 := by
    apply BitVec.eq_of_toNat_eq; rw [setPos_t1_toNat, getPos_toNat]; have := t.t0.isLt; omega
  cases t
  cases h : setPos _ _
  simp_all

theorem setPos_bit (t : Tweak128) (p : BitVec 96) (i : Nat) (h : 32 ≤ i) :
    (setPos t p).t1.getLsbD i = t.t1.getLsbD i := by
  refine (append_bit_hi _ _ i (i - 32) (by omega)).trans ?_
  by_cases h64 : i < 64
  · simp [show i - 32 < 32 by omega, show 32 + (i - 32) = i by omega]
  · rw [BitVec.getLsbD_of_ge _ i (by omega), BitVec.getLsbD_of_ge _ _ (by omega)]

theorem setFirst_bit (t : Tweak128) (b : Bool) (i : Nat) :
    (setFirst t b).t1.getLsbD i = if i = 62 then b else t.t1.getLsbD i := by
  refine (BitVec.getLsbD_append (i := i)).trans ?_
  by_cases h : i < 62
  · simp [h, show i ≠ 62 by omega]
  rw [if_neg h]
  refine (BitVec.getLsbD_append (i := i - 62)).trans ?_
  by_cases h : i = 62
  · simp [h]
  by_cases h63 : i = 63
  · simp [h63]
  · simp only [show ¬ (i - 62 < 1) by omega, if_false, if_neg h]
    rw [BitVec.getLsbD_of_ge _ i (by omega), BitVec.getLsbD_of_ge _ _ (by omega)]

theorem setFinal_bit (t : Tweak128) (b : Bool) (i : Nat) :
    (setFinal t b).t1.getLsbD i = if i = 63 then b else t.t1.getLsbD i := by
  refine (BitVec.getLsbD_append (i := i)).trans ?_
  by_cases h : i < 63
  · simp [h, show i ≠ 63 by omega]
  rw [if_neg h]
  by_cases h : i = 63
  · simp [h]
  · rw [if_neg h, BitVec.getLsbD_of_ge _ i (by omega), BitVec.getLsbD_of_ge _ _ (by omega)]

theorem setType_bit (t : Tweak128) (c : BitVec 6) (i : Nat) (hi : i < 64) :
    (setType t c).t1.getLsbD i = if 56 ≤ i ∧ i < 62 then c.getLsbD (i - 56) else t.t1.getLsbD i := by
  refine (BitVec.getLsbD_append (i := i)).trans ?_
  by_cases h : i < 56
  · simp [h, show ¬ (56 ≤ i) by omega]
  rw [if_neg h]
  have h8 : i - 56 < 8 := by omega
  have hi : i = 56 + (i - 56) := by omega
  generalize i - 56 = j at *
  subst hi
  interval_cases j <;> simp [BitVec.getLsbD_of_ge]

@[simp] theorem setFirst_t0 (t : Tweak128) (b : Bool) : (setFirst t b).t0 = t.t0 := rfl
@[simp] theorem setFinal_t0 (t : Tweak128) (b : Bool) : (setFinal t b).t0 = t.t0 := rfl
@[simp] theorem setType_t0 (t : Tweak128) (c : BitVec 6) : (setType t c).t0 = t.t0 := rfl

/-- Two tweaks whose `t1` agree from bit 0 to 31 and whose `t0` agree have one position. -/
theorem getPos_congr (t u : Tweak128) (h0 : t.t0 = u.t0) (h : ∀ i, i < 32 → t.t1.getLsbD i = u.t1.getLsbD i) :
    getPos t = getPos u := by
  have : t.t1.extractLsb' 0 32 = u.t1.extractLsb' 0 32 := by
    apply BitVec.eq_of_getLsbD_eq
    intro i hi
    simp only [BitVec.getLsbD_extractLsb', hi, Nat.zero_add, h i hi]
  unfold getPos
  rw [h0, this]

theorem getType_congr (t u : Tweak128) (h : ∀ i, 56 ≤ i → i < 62 → t.t1.getLsbD i = u.t1.getLsbD i) :
    getType t = getType u := by
  apply BitVec.eq_of_getLsbD_eq
  intro i hi
  simp only [getType, BitVec.getLsbD_extractLsb', h (56 + i) (by omega) (by omega)]

theorem getReserved_congr (t u : Tweak128) (h : ∀ i, 32 ≤ i → i < 56 → t.t1.getLsbD i = u.t1.getLsbD i) :
    getReserved t = getReserved u := by
  apply BitVec.eq_of_getLsbD_eq
  intro i hi
  simp only [getReserved, BitVec.getLsbD_extractLsb', h (32 + i) (by omega) (by omega)]

end Sys2Proof.Machine
end

