-- ==== Sys2Proof/Laws/Window.lean ====
section
/-! SUPPORT. The register window and one host access, once: which register an offset names, and what a step is when
the engine is idle. -/

namespace Sys2Proof.Machine

open Sys2Proof

theorem windowOffset_inside (s : State) (off : Nat) (h : off < 256) :
    windowOffset s (256 * s.basePage + off) = some (BitVec.ofNat 8 off) := by simp [windowOffset, base, h]

theorem windowOffset_reg (s : State) (r : Reg) :
    windowOffset s (256 * s.basePage + (offsetOf r).toNat) = some (offsetOf r) := by
  rw [windowOffset_inside s _ (offsetOf r).isLt]; simp

theorem supported_reg (r : Reg) : supported (offsetOf r) 8 = true := by
  cases r <;> try rfl
  all_goals (rename_i i; fin_cases i <;> rfl)

theorem regAt_offsetOf (r : Reg) : regAt (offsetOf r) = some r := by
  cases r <;> try rfl
  all_goals (rename_i i; fin_cases i <;> rfl)

/-- No two registers share an offset. -/
theorem offsetOf_injective {r r' : Reg} (h : offsetOf r = offsetOf r') : r = r' := by
  have := regAt_offsetOf r
  rw [h, regAt_offsetOf] at this
  exact (Option.some.inj this).symm

theorem readOffset_reg (s : State) (r : Reg) : readOffset s (offsetOf r) = readReg s r := by
  unfold readOffset
  rw [regAt_offsetOf]

theorem eventStep_read_reg (s : State) (r : Reg) :
    eventStep (.read (256 * s.basePage + (offsetOf r).toNat) 8) s = .next (readStep (offsetOf r) s) := by
  simp only [eventStep, windowOffset_reg, supported_reg, if_true]

theorem eventStep_write_reg (s : State) (r : Reg) (v : Word64) :
    eventStep (.write (256 * s.basePage + (offsetOf r).toNat) 8 v) s = writeStep (offsetOf r) v s := by
  simp only [eventStep, windowOffset_reg, supported_reg, if_true]

theorem step_of_idle (s : State) (e : Event) (rest : List Event) (he : s.engine = none) (hs : s.script = e :: rest) :
    step s = eventStep e { s with script := rest } := by
  simp only [step, engineStep_idle s he, hostStep, hs]

theorem step_of_nil (s : State) (hs : s.script = []) : step s = .next (engineStep s) := by
  simp only [step, hostStep, engineStep_script, hs]

theorem step_of_cons (s : State) (e : Event) (rest : List Event) (hs : s.script = e :: rest) :
    step s = eventStep e { engineStep s with script := rest } := by
  simp only [step, hostStep, engineStep_script, hs]

/-- A write of CMD outside the hazard starts the command. -/
theorem writeCmd_cases (w : Word64) (s : State) : ∃ t, runWord w s = .next t ∧ writeCmd w s = .next (launch s t) := by
  rcases runWord_cases w s with ⟨e, -, h⟩ | ⟨i, t, -, h, -⟩
  · exact ⟨_, h, by simp only [writeCmd, h]⟩
  · exact ⟨_, h, by simp only [writeCmd, h]⟩

/-- The hazard by its two parts. -/
theorem inHazard_of_busy (s : State) (h : busy s = true) : inHazard s = true := by simp only [inHazard, h, Bool.true_or]

theorem not_inHazard (s : State) (hb : busy s = false) (h : s.strictHazard = false ∨ s.unconfirmed = false) :
    inHazard s = false := by
  rcases h with h | h <;> simp only [inHazard, hb, h, Bool.false_and, Bool.and_false, Bool.or_false]

/-- A supported write inside the hazard refutes the run; outside it it starts a command or is `writeReg`. -/
theorem writeStep_of_hazard (off : BitVec 8) (v : Word64) (s : State) (h : inHazard s = true) :
    writeStep off v s = .fault .busyHazardWrite := by simp only [writeStep, h, if_true]

theorem writeStep_cmd (w : Word64) (s : State) (h : inHazard s = false) : writeStep (offsetOf .cmd) w s = writeCmd w s := by
  simp only [writeStep, h, Bool.false_eq_true, if_false, regAt_offsetOf]

theorem writeStep_reg (r : Reg) (v : Word64) (s : State) (h : inHazard s = false) (hr : r ≠ .cmd) :
    writeStep (offsetOf r) v s = .next (writtenState (writeReg s.regs v r) s) := by
  cases r <;> first | exact absurd rfl hr | simp only [writeStep, h, Bool.false_eq_true, if_false, regAt_offsetOf]

/-- A host write changes no register but through `writeReg`, and never the context. -/
theorem writeReg_ctx (g : Regs) (v : Word64) (r : Reg) : (writeReg g v r).ctx = g.ctx := by cases r <;> rfl

/-- BUSY of STATUS. -/
theorem statusWord_busy (b : Bool) (g : Regs) : (statusWord b g).getLsbD 0 = b := by
  refine (append_bit_lo _ _ 0 0 rfl (by decide)).trans ?_
  cases b <;> rfl

/-- The value of a read: the register's outside the hazard, and STATUS's and ID's always. -/
theorem readValue_of_defined (s : State) (off : BitVec 8) (h : inHazard s = false) : readValue s off = readOffset s off := by
  simp only [readValue, h, Bool.false_and, Bool.false_eq_true, if_false]

theorem readValue_id (s : State) : readValue s (offsetOf .id) = readReg s .id := by
  simp only [readValue, definedInHazard, beq_self_eq_true, Bool.or_true, Bool.not_true, Bool.and_false,
    Bool.false_eq_true, if_false, readOffset_reg]

theorem readValue_status (s : State) : readValue s (offsetOf .status) = readReg s .status := by
  simp only [readValue, definedInHazard, beq_self_eq_true, Bool.true_or, Bool.not_true, Bool.and_false,
    Bool.false_eq_true, if_false, readOffset_reg]

/-- A register depends on the registers, and STATUS on BUSY too. -/
theorem readReg_congr {s t : State} (hr : t.regs = s.regs) (hb : busy t = busy s) (r : Reg) : readReg t r = readReg s r := by
  cases r <;> simp only [readReg, hr, hb]

end Sys2Proof.Machine
end

