-- ==== Sys2Proof/Tests/Slice0.lean ====
section
/-! SUPPORT. The model's own tests.  Expected values are the spec's: the encodings of 30_encoding.md R63 and the
vectors of 95_test_vectors.md (named W or V).  The second half holds one witness per statement with hypotheses. -/

namespace Sys2Proof.Tests

open Sys2Proof Sys2Proof.Machine

/-! Helpers. -/

def nextOf (o : Host.Outcome State Fault Refusal) : Option State :=
  match o with
  | .next s => some s
  | .fault _ => none
  | .refused _ => none

def faultOf (o : Host.Outcome State Fault Refusal) : Option Fault :=
  match o with
  | .next _ => none
  | .fault r => some r
  | .refused _ => none

def refusalOf (o : Host.Outcome State Fault Refusal) : Option Refusal :=
  match o with
  | .next _ => none
  | .fault _ => none
  | .refused r => some r

/-- The reset state with other registers. -/
def withRegs (g : Regs) : State := { State.reset with regs := g }

/-- The reset state with the host's accesses `es` still to come. -/
def withScript (es : List Event) : State := { State.reset with script := es }

/-- The registers after a command, from the registers `g`. -/
def after (i : Instr) (g : Regs) : Option Regs := (nextOf (exec i (withRegs g))).map (·.regs)

/-- The registers after a command word, from the registers `g`. -/
def afterWord (w : Word64) (g : Regs) : Option Regs := (nextOf (runWord w (withRegs g))).map (·.regs)

/-- Reset registers with a cipher operand. -/
def cipherRegs (k : Word256) (t : Tweak128) (b : Word256) : Regs := { Regs.reset with key := k, twk := t, blk := b }

def zero256 : Word256 := ⟨0, 0, 0, 0⟩

/-- The configuration words of W1. -/
def w1Words : Word256 := ⟨0x0000000133414853#64, 0x0000000000000100#64, 0, 0⟩

/-- The digest G2 of W3. -/
def w3Res : Word256 :=
  ⟨0x500EEA98D1DC980B#64, 0x235CE244C444A2A7#64, 0x70F2A1C90FC130DA#64, 0xD27EE6341F7F63A6#64⟩

/-- The context of program P1 after its statement 5: one buffered byte FF. -/
def p1Context : Context :=
  { cv := iv, ctw := ⟨0, 0x7000000000000000#64⟩, buf := pad32 [0xFF#8] 1, bcnt := 1, cstate := .ready }

/-- The context of V-CTX-3: 32 buffered bytes FF to E0. -/
def fullContext : Context :=
  { cv := iv, ctw := ⟨0, 0x7000000000000000#64⟩,
    buf := w2b ⟨0xF8F9FAFBFCFDFEFF#64, 0xF0F1F2F3F4F5F6F7#64, 0xE8E9EAEBECEDEEEF#64, 0xE0E1E2E3E4E5E6E7#64⟩,
    bcnt := 32, cstate := .ready }

/-- The context of V-CTX-5: 25 buffered bytes 00 to 18. -/
def splitContext : Context :=
  { cv := iv, ctw := ⟨0, 0x7000000000000000#64⟩,
    buf := w2b ⟨0x0706050403020100#64, 0x0F0E0D0C0B0A0908#64, 0x1716151413121110#64, 0x0000000000000018#64⟩,
    bcnt := 25, cstate := .ready }

/-- A context after CTX_FINAL. -/
def closedP1 : Context :=
  { cv := w3Res, ctw := ⟨1, 0xB000000000000000#64⟩, buf := zero32, bcnt := 0, cstate := .finalized }

def contextRegs (c : Context) (d : Word64) : Regs := { Regs.reset with ctx := c, din := d }

/-- A state with a command in flight, three cycles from its end, and the host's accesses `es` to come. -/
def runningState (es : List Event) : State :=
  { withScript es with engine := some ⟨3, Regs.reset⟩, unconfirmed := true }

/-- A state in the last cycle of a command, whose end the host has not read. -/
def unreadState (es : List Event) : State :=
  { withScript es with engine := some ⟨1, Regs.reset⟩, unconfirmed := true }

/-- The same state of a machine whose hazard ends with BUSY = 1. -/
def laxState (es : List Event) : State := { unreadState es with strictHazard := false }

/-! WellFormed. -/

theorem test_wf_accepts :
    Instr.tfEnc.wf = true ∧ (Instr.ubiBlock 32 true).wf = true ∧ Instr.ctxInit.wf = true ∧
      Instr.ctxInitCfg.wf = true ∧ (Instr.ctxUpdate 8).wf = true ∧ Instr.ctxFinal.wf = true := by decide

theorem test_wf_refuses_ubiBlock_33 : (Instr.ubiBlock 33 false).wf = false := by decide
theorem test_wf_refuses_ctxUpdate_9 : (Instr.ctxUpdate 9).wf = false := by decide

/-! Decoding: words written out field by field, RSV, FIN, RSV, LEN, OP (R61, R63). -/

theorem test_decode_tfEnc : decode (0#47 ++ 0#1 ++ 0#2 ++ 0b000000#6 ++ 0b00000001#8) = .ok .tfEnc := by decide
theorem test_decode_ubiBlock :
    decode (0#47 ++ 1#1 ++ 0#2 ++ 0b100000#6 ++ 0b00000010#8) = .ok (.ubiBlock 32 true) ∧
      decode (0#47 ++ 0#1 ++ 0#2 ++ 0b000001#6 ++ 0b00000010#8) = .ok (.ubiBlock 1 false) := by decide
theorem test_decode_ctxInit : decode (0#47 ++ 0#1 ++ 0#2 ++ 0b000000#6 ++ 0b00010000#8) = .ok .ctxInit := by decide
theorem test_decode_ctxInitCfg :
    decode (0#47 ++ 0#1 ++ 0#2 ++ 0b000000#6 ++ 0b00010001#8) = .ok .ctxInitCfg := by decide
theorem test_decode_ctxUpdate :
    decode (0#47 ++ 0#1 ++ 0#2 ++ 0b000011#6 ++ 0b00010010#8) = .ok (.ctxUpdate 3) := by decide
theorem test_decode_ctxFinal : decode (0#47 ++ 0#1 ++ 0#2 ++ 0b000000#6 ++ 0b00010011#8) = .ok .ctxFinal := by decide

/-- The illegal words of V-ERR and V-ENC, by name. -/
theorem test_decode_illegal :
    decode 0x14#64 = .error .unknownOpcode ∧ decode 0x912#64 = .error .lenOutOfRange ∧
      decode 0x110#64 = .error .lenOutOfRange ∧ decode 0x10001#64 = .error .finNotAllowed ∧
      decode 0x8000000000000001#64 = .error .reservedBit ∧ decode 0x8001#64 = .error .reservedBit := by decide

/-- The sample words of R63 and V-ENC. -/
theorem test_encode_samples :
    encode (.ubiBlock 32 true) = 0x12002#64 ∧ encode (.ubiBlock 0 true) = 0x10002#64 ∧
      encode (.ctxUpdate 1) = 0x112#64 ∧ encode (.ctxUpdate 8) = 0x812#64 ∧ encode .ctxFinal = 0x13#64 := by decide

/-- The match and mask columns of opcode_table.json. -/
def tableRows : List (Word64 × Word64) :=
  [(0x01#64, 0xFFFFFFFFFFFFFFFF#64), (0x02#64, 0xFFFFFFFFFFFEC0FF#64), (0x10#64, 0xFFFFFFFFFFFFFFFF#64)]
  ++ [(0x11#64, 0xFFFFFFFFFFFFFFFF#64), (0x12#64, 0xFFFFFFFFFFFFC0FF#64), (0x13#64, 0xFFFFFFFFFFFFFFFF#64)]

theorem test_table_rows_disjoint :
    tableRows.Pairwise fun a b => a.1 &&& (a.2 &&& b.2) ≠ b.1 &&& (a.2 &&& b.2) := by decide

theorem test_decodeTableWord :
    decodeTableWord 64 0x12002 = some (.ubiBlock 32 true) ∧ decodeTableWord 64 0 = none := by decide

/-! Words, tweaks and the key schedule (V-ROT, V-MIX, V-TW, V-KS). -/

theorem test_rotation :
    rotl64 0x8000000000000001#64 1 = 3#64 ∧ rotl64 0x0123456789ABCDEF#64 58 = 0xBC048D159E26AF37#64 := by decide

theorem test_mix :
    mix 1#64 2#64 14 = (3#64, 0x8003#64) ∧ mix 0#64 0x0123456789ABCDEF#64 5 = (0x0123456789ABCDEF#64, 0x254BE996BCD2700F#64) := by
  decide

theorem test_tweak_operations :
    setType ⟨0, 0xC400000000000000#64⟩ outType = ⟨0, 0xFF00000000000000#64⟩ ∧
      setType ⟨5, 0xFFFFFFFFFFFFFFFF#64⟩ msgType = ⟨5, 0xF0FFFFFFFFFFFFFF#64⟩ ∧
      setPos ⟨0, 0x7000000000000000#64⟩ (BitVec.ofNat 96 (2 ^ 64 + 5)) = ⟨5, 0x7000000000000001#64⟩ ∧
      setPos ⟨0, 0x7000000000000000#64⟩ (BitVec.ofNat 96 (2 ^ 96 + 3)) = ⟨3, 0x7000000000000000#64⟩ ∧
      mkTweak cfgType true true = ⟨0, 0xC400000000000000#64⟩ := by decide

theorem test_key_schedule :
    subkey ⟨0x1716151413121110#64, 0x1F1E1D1C1B1A1918#64, 0x2726252423222120#64, 0x2F2E2D2C2B2A2928#64⟩
        ⟨0x0706050403020100#64, 0x0F0E0D0C0B0A0908#64⟩ 17 =
      ⟨0x2726252423222120#64, 0x3736353433323130#64, 0x22D720DEACFE1B22#64, 0x1716151413121121#64⟩ := by decide

/-! The commands. -/

/-- V-TF-2. -/
theorem test_tfEnc_sequential :
    (after .tfEnc (cipherRegs
      ⟨0x1716151413121110#64, 0x1F1E1D1C1B1A1918#64, 0x2726252423222120#64, 0x2F2E2D2C2B2A2928#64⟩
      ⟨0x0706050403020100#64, 0x0F0E0D0C0B0A0908#64⟩
      ⟨0xF8F9FAFBFCFDFEFF#64, 0xF0F1F2F3F4F5F6F7#64, 0xE8E9EAEBECEDEEEF#64, 0xE0E1E2E3E4E5E6E7#64⟩)).map (·.res) =
    some ⟨0xDF8FEA0EFF91D0E0#64, 0xD50AD82EE69281C9#64, 0x76F48D58085D869D#64, 0xDF975E95B5567065#64⟩ := by
  decide +kernel

/-- V-TF-3: every addition wraps. -/
theorem test_tfEnc_all_ones :
    (after .tfEnc (cipherRegs ⟨-1, -1, -1, -1⟩ ⟨-1, -1⟩ ⟨-1, -1, -1, -1⟩)).map (·.res) =
    some ⟨0x6577EC044C721831#64, 0x33FB570832CBC077#64, 0x35FB7154195F24E5#64, 0x8B989BB969F1A02B#64⟩ := by
  decide +kernel

/-- V-UBI-3: bytes past LEN are ignored, KEY and RES agree, TWK counts 8 bytes. -/
theorem test_ubiBlock_partial :
    (after (.ubiBlock 8 true) (cipherRegs zero256 ⟨0, 0x7000000000000000#64⟩
      ⟨0xA7A6A5A4A3A2A1A0#64, 0xAFAEADACABAAA9A8#64, 0xB7B6B5B4B3B2B1B0#64, 0xBFBEBDBCBBBAB9B8#64⟩)).map
      (fun g => (g.key, g.res == g.key, g.twk)) =
    some (⟨0x782742BFFCF0C0D4#64, 0xD368F224052FB8A9#64, 0x31F4C5E3813326BD#64, 0x8B6F4B6D36AC4297#64⟩, true,
      ⟨8, 0xB000000000000000#64⟩) := by decide +kernel

/-- V-UBI-4: the position wraps modulo 2^96. -/
theorem test_ubiBlock_position_wraps :
    (after (.ubiBlock 32 false) (cipherRegs zero256 ⟨0xFFFFFFFFFFFFFFF0#64, 0x30000000FFFFFFFF#64⟩ zero256)).map
      (fun g => (g.res, g.twk)) =
    some (⟨0x3CF356E72206B14A#64, 0x1E8E87D3C30EEBA2#64, 0x98A4DD3C07E34BE7#64, 0xCFC7E90FA2179BCD#64⟩,
      ⟨0x10, 0x3000000000000000#64⟩) := by decide +kernel

/-- V-CTX-2. -/
theorem test_ctxInit :
    (nextOf (exec .ctxInit State.reset)).map (fun s => (s.regs.ctx.cv, s.regs.ctx.ctw, readReg s .status)) =
    some (iv, ⟨0, 0x7000000000000000#64⟩, 0x100#64) := by decide +kernel

/-- V-CTX-2 and W2. -/
theorem test_ctxInitCfg :
    (nextOf (exec .ctxInitCfg State.reset)).map (fun s => (s.regs.ctx.cv, readReg s .status)) =
    some (⟨0xFC9DA860D048B449#64, 0x2FCA66479FA7D833#64, 0xB33BC3896656840F#64, 0x6A54E920FDE8DA69#64⟩, 0x100#64) := by
  decide +kernel

/-- V-CTX-4: the 33rd byte flushes a block. -/
theorem test_ctxUpdate_flush :
    (nextOf (exec (.ctxUpdate 1) (withRegs (contextRegs fullContext 0xDF#64)))).map
      (fun s => (s.regs.ctx.cv.w0, s.regs.ctx.ctw, readReg s (.cbuf 0), readReg s (.cbuf 1), readReg s .status)) =
    some (0x7F9A85AC3AEABC4B#64, ⟨0x20, 0x3000000000000000#64⟩, 0xDF#64, 0#64, 0x10100#64) := by decide +kernel

/-- V-CTX-5: seven lanes complete a block, the eighth stays. -/
theorem test_ctxUpdate_split_flush :
    (nextOf (exec (.ctxUpdate 8) (withRegs (contextRegs splitContext 0x201F1E1D1C1B1A19#64)))).map
      (fun s => (s.regs.ctx.cv, readReg s (.cbuf 0), readReg s .status)) =
    some (⟨0x8B11B7D06F0AC887#64, 0xCE49CB7E3DF53010#64, 0x37C2158E3928F811#64, 0x8A03A98A22170A51#64⟩, 0x20#64,
      0x10100#64) := by decide +kernel

/-- P1 and W3. -/
theorem test_ctxFinal :
    (nextOf (exec .ctxFinal (withRegs (contextRegs p1Context 0xFF#64)))).map
      (fun s => (s.regs.res, s.regs.ctx.cv, s.regs.ctx.ctw, readReg s .status)) =
    some (w3Res, w3Res, ⟨1, 0xB000000000000000#64⟩, 0x200#64) := by decide +kernel

/-- V-ERR: CTX_FINAL twice; RES keeps the digest. -/
theorem test_ctxFinal_twice :
    (nextOf (exec .ctxFinal (withRegs { contextRegs closedP1 0 with res := w3Res }))).map
      (fun s => (s.regs.res, readReg s .status)) = some (w3Res, 0x220#64) := by decide

/-- V-ERR: the rows that start in IDLE. -/
theorem test_errors_in_idle :
    (afterWord 0x112#64 Regs.reset).map (·.err) = some .invalidState ∧
      (afterWord 0x912#64 Regs.reset).map (·.err) = some .illegalCmd ∧
      (afterWord 0#64 Regs.reset).map (·.err) = some .illegalCmd ∧
      (afterWord 0x2102#64 Regs.reset).map (·.err) = some .illegalCmd := by decide

/-- V-CTX-1: the one-shot construction on the empty message. -/
theorem test_skein256_empty :
    b2w (skein256 []) =
      ⟨0x72E056DA877087C8#64, 0x946E173F84AA0D87#64, 0x403A4C0929591153#64, 0xBAF79BC296A163C4#64⟩ := by
  decide +kernel

/-! One step. -/

/-- The word after `withFetchWord` starts the command: BUSY is 1, and its result is due in one cycle. -/
theorem test_step_starts_command :
    (nextOf (step (State.reset.withFetchWord 64 0x10))).map
      (fun s => (s.engine.map fun p => (p.cyclesLeft, p.result.ctx.cstate), (readReg s .status).getLsbD 0)) =
    some (some (1, .ready), true) := by decide

/-- V-MEM: a write of RES0 is ignored, a write of KEY0 is not. -/
theorem test_step_writes :
    (nextOf (step (withScript [.write 0x60 8 5]))).map (readReg · (.res 0)) = some 0#64 ∧
      (nextOf (step (withScript [.write 0x10 8 7]))).map (readReg · (.key 0)) = some 7#64 := by decide

/-- V-MEM: what the host reads of ID and of a reserved offset. -/
theorem test_step_reads :
    (nextOf (step (withScript [.read 0x88 8]))).map (·.readLog) = some [⟨0x88#8, 0x3635324E49454B53#64⟩] ∧
      (nextOf (step (withScript [.read 0xE0 8]))).map (·.readLog) = some [⟨0xE0#8, 0#64⟩] := by decide

/-- R53, R124 and R49: the three accesses that stop the machine. -/
theorem test_step_stops :
    faultOf (step (withScript [.read 0x10 4])) = some .unsupportedAccess ∧
      faultOf (step (withScript [.read 0x11 8])) = some .unsupportedAccess ∧
      faultOf (step (runningState [.write 0x10 8 5])) = some .busyHazardWrite ∧
      refusalOf (step (withScript [.read 0x100 8])) = some .outsideWindow := by decide

/-- R50, R51 and R56, where the hazard ends with BUSY = 1: an access before the host has read STATUS is defined, and
noted as early. -/
theorem test_step_before_status_read :
    (nextOf (step (laxState [.read 0x90 8]))).map (fun s => (s.readLog, s.early)) = some ([⟨0x90#8, 0#64⟩], true) ∧
      (nextOf (step (laxState [.write 0x10 8 7]))).map (fun s => (readReg s (.key 0), s.early)) = some (7#64, true) := by
  decide

/-- R124 and R131, to the letter: such a read is a free draw, such a write (of a register, of CMD) refutes the run, and a
read of STATUS ends it. -/
theorem test_step_before_status_read_strict :
    (nextOf (step (unreadState [.read 0x90 8]))).map (·.draws) = some 1 ∧
      faultOf (step (unreadState [.write 0x10 8 7])) = some .busyHazardWrite ∧
      faultOf (step (unreadState [.write 0x00 8 0x10#64])) = some .busyHazardWrite ∧
      (nextOf (step (unreadState [.read 0x08 8]))).map (fun s => (s.unconfirmed, s.early)) = some (false, false) := by
  decide

/-- R107: a write of an illegal word to CMD starts a command whose result is ERR = ILLEGAL_CMD. -/
theorem test_step_illegal_word :
    (nextOf (step (withScript [.write 0x00 8 0x912#64]))).map (fun s => s.engine.map fun p => (p.cyclesLeft, p.result.err)) =
      some (some (1, .illegalCmd)) := by decide

/-- R66: the syntax of a line. -/
theorem test_parse_lines :
    parseLine ['W', 'R', ' ', 'D', 'I', 'N', ',', ' ', '0', 'x', 'F', 'F'] = some (.wr .din 0xFF#64) ∧
      parseLine ['U', 'B', 'I', '_', 'B', 'L', 'O', 'C', 'K', ' ', '3', '2', ',', ' ', 'F', 'I', 'N'] =
        some (.command (.ubiBlock 32 true)) ∧
      parseLine ['R', 'D', ' ', 'C', 'B', 'U', 'F', '3', ';', 'x'] = some (.rd (.cbuf 3)) := by decide

/-! Witnesses: for each statement with hypotheses, concrete operands that meet them together, at the boundary of each
clause. -/

theorem witness_DecodeOfEncodeIsIdentity : (Instr.ubiBlock 32 true).wf = true ∧ (Instr.ctxUpdate 8).wf = true := by
  decide
theorem witness_EncodeOfDecodeIsIdentity : decode 0x12002#64 = .ok (.ubiBlock 32 true) := by decide
theorem witness_RotationIsLeftRotate : (63 : Nat) ≤ 63 ∧ (0 : Nat) < 64 := by decide
theorem witness_WordsAndBytesAreInverse :
    (31 : Fin 32).val = 8 * (3 : Fin 4).val + (7 : Fin 8).val ∧ (0 : Fin 32).val = 8 * (0 : Fin 4).val + (0 : Fin 8).val := by
  decide
theorem witness_TypeSetterKeepsEveryOtherBit :
    ((55 : Nat) < 64 ∧ (55 < 56 ∨ 62 ≤ 55)) ∧ ((62 : Nat) < 64 ∧ (62 < 56 ∨ 62 ≤ 62)) := by decide
theorem witness_FlagSettersChangeOneBit : ((63 : Nat) < 64 ∧ (63 : Nat) ≠ 62) ∧ ((62 : Nat) < 64 ∧ (62 : Nat) ≠ 63) := by
  decide
theorem witness_ThreefishIsInjectiveInPlaintext :
    threefish zero256 ⟨0, 0⟩ zero256 = threefish zero256 ⟨0, 0⟩ zero256 := rfl
theorem witness_UbiBlockTweakFields : (32 : Nat) ≤ 32 ∧ (0 : Nat) ≤ 32 := by decide
theorem witness_UbiBlockCompletes : (32 : Nat) ≤ 32 ∧ (0 : Nat) ≤ 32 := by decide

/-- The two blocks of V-UBI-3. -/
theorem witness_UbiBlockIgnoresBytesPastLen :
    ∀ j : Fin 32, j.val < 8 →
      (w2b ⟨0xA7A6A5A4A3A2A1A0#64, 0xAFAEADACABAAA9A8#64, 0xB7B6B5B4B3B2B1B0#64, 0xBFBEBDBCBBBAB9B8#64⟩)[j] =
        (w2b ⟨0xA7A6A5A4A3A2A1A0#64, 0, 0, 0⟩)[j] := by decide
theorem witness_UbiPassBlockTweaks : 0 < blockCount 33 ∧ 0 + 1 < blockCount 33 ∧ 1 < blockCount 33 ∧ 1 + 1 = blockCount 33 := by
  decide
theorem witness_TweakBytesAreLittleEndian : (15 : Nat) < 16 ∧ (0 : Nat) < 16 := by decide
theorem witness_MessageSplitsIntoItsBlocks :
    (List.replicate 33 (0xFF#8 : Byte)) ≠ [] ∧ (0 : Nat) + 1 < blockCount 33 ∧ 1 < blockCount 33 := by decide
theorem witness_EmptyPassIsOneZeroBlock : (newContext iv).bcnt = 0 := by decide
theorem witness_CtxUpdateBuffersBytes :
    ((8 : Nat) ≤ 8 ∧ (newContext iv).cstate = .ready ∧ (newContext iv).bcnt.val + 8 ≤ 32) ∧
      ((0 : Nat) ≤ 8 ∧ fullContext.cstate = .ready ∧ fullContext.bcnt.val + 0 ≤ 32) := by decide
theorem witness_CtxUpdateFlushesOneBlock :
    ((8 : Nat) ≤ 8 ∧ splitContext.cstate = .ready ∧ 32 < splitContext.bcnt.val + 8) ∧
      ((1 : Nat) ≤ 8 ∧ fullContext.cstate = .ready ∧ 32 < fullContext.bcnt.val + 1) := by decide
theorem witness_CtxUpdateIgnoresLanesPastLen :
    (1 : Nat) ≤ 8 ∧ ∀ j, j < 1 → (0xFF#64).extractLsb' (8 * j) 8 = (0xABFF#64).extractLsb' (8 * j) 8 := by decide
theorem witness_CtxFinalCompletes : p1Context.cstate = .ready ∧ (newContext iv).cstate = .ready := by decide
theorem witness_StreamedContextFields :
    ([0xFF#8] : List Byte) ≠ [] ∧ List.replicate 33 (0xFF#8 : Byte) ≠ [] ∧ 0 < (33 - 1) / 32 := by decide
theorem witness_StreamingDigestEqualsOneShot : (withRegs (contextRegs (contextAfter []) 0)).regs.ctx = contextAfter [] := rfl
theorem witness_ContextLifecycle :
    p1Context.cstate = .ready ∧ Context.reset.cstate ≠ .ready ∧ closedP1.cstate ≠ .ready ∧ (8 : Nat) ≤ 8 := by decide

/-- LEN 33 is illegal and LEN 32 is not; an unknown opcode, a reserved bit and a FIN are illegal. -/
theorem witness_IllegalWordsRaiseIllegalCommand :
    legal 0x2102#64 = false ∧ legal 0x2002#64 = true ∧ legal 0x912#64 = false ∧ legal 0x812#64 = true ∧
      legal 0x14#64 = false ∧ legal 0x4002#64 = false ∧ legal 0x10012#64 = false := by decide
theorem witness_LegalityIsTestedBeforeContextState :
    (legal 0x912#64 = false) ∧
      (legal 0x13#64 = true ∧ (0x13#64).toNat % 2 ^ 8 = 0x13 ∧ Context.reset.cstate ≠ .ready) ∧
      (legal 0x13#64 = true ∧ ¬ (((0x13#64).toNat % 2 ^ 8 = 0x12 ∨ (0x13#64).toNat % 2 ^ 8 = 0x13) ∧ p1Context.cstate ≠ .ready)) := by
  decide
theorem witness_CommandsWriteOnlyTheirRegisters :
    (∃ t, exec .ctxInit State.reset = .next t) ∧ commandWrites .ctxInit (.key 0) = false ∧
      (∃ t, exec .tfEnc State.reset = .next t) ∧ commandWrites .tfEnc (.cv 0) = false :=
  ⟨⟨_, rfl⟩, rfl, ⟨_, rfl⟩, rfl⟩
theorem witness_ContextCommandsIgnoreOperandRegisters :
    Instr.ctxFinal = .ctxInit ∨ Instr.ctxFinal = .ctxInitCfg ∨ (∃ n, Instr.ctxFinal = .ctxUpdate n) ∨ Instr.ctxFinal = .ctxFinal :=
  .inr (.inr (.inr rfl))
theorem witness_CipherCommandsIgnoreContext :
    Instr.ubiBlock 32 true = .tfEnc ∨ ∃ n f, Instr.ubiBlock 32 true = .ubiBlock n f := .inr ⟨_, _, rfl⟩
theorem witness_RepeatedTfEncAndCtxInitChangeNothing :
    (∃ t, exec .tfEnc State.reset = .next t) ∧ ∃ t, exec .ctxInit State.reset = .next t := ⟨⟨_, rfl⟩, ⟨_, rfl⟩⟩
theorem witness_HostReadReturnsRegister :
    (withScript [.read 0x08 8]).engine = none ∧ (withScript [.read 0x08 8]).unconfirmed = false ∧
      (withScript [.read 0x08 8]).script = [.read (256 * 0 + (offsetOf .status).toNat) 8] := by decide
theorem witness_HostWriteReplacesOneRegister :
    hostMayWrite .din = true ∧ (withScript [.write 0x80 8 7]).engine = none ∧
      (withScript [.write 0x80 8 7]).unconfirmed = false ∧
      (withScript [.write 0x80 8 7]).script = [.write (256 * 0 + (offsetOf .din).toNat) 8 7] := by decide
theorem witness_ReadOnlyAndReservedAccesses :
    hostMayWrite .id = false ∧ Reg.id ≠ .cmd ∧
      (withScript [.write 0x88 8 5]).script = [.write (256 * 0 + (offsetOf .id).toNat) 8 5] ∧
      (withScript [.write 0xE0 8 5]).script = [.write (256 * 0 + 0xE0) 8 5] ∧
      (withScript [.read 0x00 8]).script = [.read (256 * 0 + 0x00) 8] ∧ (withScript []).engine = none ∧
      (withScript []).unconfirmed = false := by decide
theorem witness_UnsupportedAccessFaults :
    256 * State.reset.basePage ≤ 0x0C ∧ 0x0C < 256 * State.reset.basePage + 256 ∧
      ((8 : Nat) ≠ 8 ∨ (0x0C - 256 * State.reset.basePage) % 8 ≠ 0) ∧
      (withScript [.read 0x0C 8]).script = [.read 0x0C 8] ∧
      ((4 : Nat) ≠ 8 ∨ (0x08 - 256 * State.reset.basePage) % 8 ≠ 0) ∧
      (withScript [.write 0x08 4 0]).script = [.write 0x08 4 0] := by decide
theorem witness_StepRunsDecodedCommand :
    (withScript [.write 0 8 0x10#64]).engine = none ∧ (withScript [.write 0 8 0x10#64]).unconfirmed = false ∧
      (withScript [.write 0 8 0x10#64]).script = [.write (256 * 0) 8 0x10#64] ∧
      decode 0x10#64 = .ok .ctxInit ∧ legal 0x912#64 = false :=
  ⟨rfl, rfl, rfl, by decide, by decide⟩
theorem witness_PlacedCommandRunsNext : decode 0x1#64 = .ok .tfEnc := by decide
theorem witness_CommandCompletesAfterItsLatency :
    (runningState []).engine = some ⟨3, Regs.reset⟩ ∧ (runningState []).script = [] ∧ 1 ≤ 3 := by decide
/-- Idle, with a command's end left to read. -/
def unconfirmedIdle : State := { State.reset with unconfirmed := true }

theorem witness_BusyHazardAccesses :
    (runningState []).engine ≠ none ∧ (unconfirmedIdle.strictHazard = true ∧ unconfirmedIdle.unconfirmed = true) ∧
      unconfirmedIdle.engine = none ∧
      Reg.key 0 ≠ .status ∧ Reg.key 0 ≠ .id := by decide
theorem witness_HazardLastsUntilIdleStatusRead :
    (runningState []).unconfirmed = true ∧ (∃ t, step (runningState []) = .next t) ∧
      (unreadState [.read 0x08 8]).unconfirmed = true ∧ (∃ t, step (unreadState [.read 0x08 8]) = .next t) ∧
      (unreadState [.read 0x08 8]).script.head? = some (.read (256 * 0 + 0x08) 8) ∧
      (unreadState [.read 0x08 8]).engine = some ⟨1, Regs.reset⟩ ∧ 1 ≤ 1 :=
  ⟨rfl, ⟨_, rfl⟩, rfl, ⟨_, rfl⟩, rfl, rfl, Nat.le_refl 1⟩
theorem witness_ResultsVisibleWhenBusyReturnsToZero :
    ((laxState [.read 0x60 8]).engine = some ⟨1, Regs.reset⟩ ∧ 1 ≤ 1 ∧ (laxState [.read 0x60 8]).strictHazard = false ∧
        (laxState [.read 0x60 8]).script = [.read (256 * 0 + (offsetOf (.res 0)).toNat) 8]) ∧
      (unreadState [.read 0x08 8]).engine = some ⟨1, Regs.reset⟩ ∧
      (unreadState [.read 0x08 8]).script = [.read (256 * 0 + (offsetOf .status).toNat) 8] := by decide
theorem witness_WaitLoopsOnBusy :
    (runningState [.wait]).script = [.wait] ∧ (runningState [.wait]).engine = some ⟨3, Regs.reset⟩ ∧ 1 < 3 ∧
      (withScript [.wait]).engine = none ∧
      ({ withScript [.wait] with engine := some ⟨1, Regs.reset⟩, unconfirmed := true } : State).engine =
        some ⟨1, Regs.reset⟩ ∧ 1 ≤ 1 := by decide
theorem witness_ResetAbandonsCommand : (runningState [.reset]).script = [.reset] ∧ (runningState [.reset]).engine ≠ none := by
  decide

/-- A full READY context, a command in flight whose result is a closed context. -/
def busyState : State :=
  { withRegs (contextRegs fullContext 0) with engine := some ⟨2, contextRegs closedP1 0⟩, unconfirmed := true }

theorem fullContext_inv : ContextInv fullContext where
  tail_zero := by decide
  idle_reset := by decide
  ready_tweak := fun _ => ⟨by decide, by decide, by decide, by decide, by decide, by decide⟩
  closed_tweak := by intro h; exact absurd h (by decide)

theorem closedP1_inv : ContextInv closedP1 where
  tail_zero := by decide
  idle_reset := by intro h; exact absurd h (by decide)
  ready_tweak := by intro h; exact absurd h (by decide)
  closed_tweak := fun _ => ⟨by decide, by decide, by decide, by decide, by decide⟩

theorem witness_StepKeepsInvariant : busyState.Inv ∧ ∃ t, step busyState = .next t :=
  ⟨⟨fullContext_inv, (by rintro p ⟨⟩; exact closedP1_inv), (by rintro p ⟨⟩; decide), fun _ => rfl⟩, _, rfl⟩
theorem witness_StepKeepsReadyContextAMessage :
    HoldsMessage (withRegs (contextRegs (contextAfter [0xFF#8]) 0)).regs.ctx ∧
      (withRegs (contextRegs (contextAfter [0xFF#8]) 0)).engine = none ∧
      ∃ t, step (withRegs (contextRegs (contextAfter [0xFF#8]) 0)) = .next t := ⟨fun _ => ⟨_, rfl⟩, rfl, _, rfl⟩
theorem witness_ResetStateReadsZeroButId : Reg.status ≠ .id ∧ Reg.cbuf 3 ≠ .id := by decide
theorem witness_UpdateExpandsToChunks : 0 < (9 + 7) / 8 ∧ 1 < (9 + 7) / 8 := by decide
theorem witness_StepKeepsBaseAndRecord : ∃ t, step (withScript [.read 0x08 8]) = .next t := ⟨_, rfl⟩

end Sys2Proof.Tests
end

section
/-! PROOFS of 00_scope.md: rotation (O5), words and bytes (O6), injectivity of Threefish-256 (O13). -/

namespace Sys2Proof.Machine

open Sys2Proof

/-! Rotation (00_scope.md R14). -/

theorem rotl64_eq_rotateLeft (x : Word64) (r : Nat) (hr : r ≤ 63) : rotl64 x r = x.rotateLeft r :=
  (BitVec.rotateLeft_eq_rotateLeftAux_of_lt (by omega)).symm

theorem rotl64_toNat (x : Word64) (r : Nat) :
    (rotl64 x r).toNat = (x.toNat * 2 ^ r ||| x.toNat / 2 ^ (64 - r)) % 2 ^ 64 := by
  have hsmall : x.toNat / 2 ^ (64 - r) < 2 ^ 64 := Nat.lt_of_le_of_lt (Nat.div_le_self _ _) x.isLt
  rw [Nat.or_mod_two_pow, Nat.mod_eq_of_lt hsmall]
  simp [rotl64, Nat.shiftLeft_eq, Nat.shiftRight_eq_div_pow]

theorem rotl64_zero (x : Word64) : rotl64 x 0 = x := by
  simp [rotl64, BitVec.ushiftRight_eq_zero (x := x) (n := 64) (by decide)]

/-- Bit `i` of the operand is bit `i + r` of the result, around the end of the word. -/
theorem rotl64_bit (x : Word64) (r i : Nat) (hr : r ≤ 63) (hi : i < 64) :
    (rotl64 x r).getLsbD ((i + r) % 64) = x.getLsbD i := by
  rw [rotl64_eq_rotateLeft x r hr, BitVec.getLsbD_rotateLeft, Nat.mod_eq_of_lt (show r < 64 by omega)]
  by_cases hwrap : i + r < 64
  · have hmod : (i + r) % 64 = i + r := Nat.mod_eq_of_lt hwrap
    simp [hmod, hwrap]
  · have hmod : (i + r) % 64 = i + r - 64 := by omega
    simp [hmod, show i + r - 64 < r by omega, show 64 - r + (i + r - 64) = i by omega]

theorem rotl64_injective (r : Nat) (hr : r ≤ 63) (x y : Word64) (h : rotl64 x r = rotl64 y r) : x = y := by
  apply BitVec.eq_of_getLsbD_eq
  intro i hi
  rw [← rotl64_bit x r i hr hi, h, rotl64_bit y r i hr hi]

/-- Settles O5: the library's rotation, as a number and bit by bit. -/
theorem rotationIsLeftRotate : Obligations.RotationIsLeftRotate := fun x r hr =>
  ⟨rotl64_toNat x r, rotl64_zero x, fun i hi => rotl64_bit x r i hr hi⟩

/-! Words and bytes (00_scope.md R13). -/

theorem byteLane_toNat (w : Word64) (j : Nat) : (byteLane w j).toNat = w.toNat / 2 ^ (8 * j) % 2 ^ 8 := by
  rw [byteLane, BitVec.extractLsb'_toNat, Nat.shiftRight_eq_div_pow]

/-- Byte `8i+j` of `W2B(w)` is byte lane `j` of word `i`. -/
theorem w2b_get_lane (w : Word256) (i : Fin 4) (j : Nat) (hj : j < 8) :
    (w2b w)[8 * i.val + j]'(by omega) = byteLane (word w i) j := by
  rw [w2b_get]
  congr 2
  · exact Fin.ext (show (8 * i.val + j) / 8 = i.val by omega)
  · omega

theorem w2b_b2w (b : Bytes32) : w2b (b2w b) = b := by
  ext k hk : 1
  rw [w2b_get _ k hk, word_b2w, byteLane_le64 _ _ _ (Nat.mod_lt k (by decide)), Nat.div_add_mod]
  simp [hk]

theorem b2w_w2b (w : Word256) : b2w (w2b w) = w := by
  apply word256_ext
  intro i
  apply word64_ext
  intro j hj
  rw [word_b2w, byteLane_le64 _ _ _ hj, ← w2b_get_lane w i j hj]
  simp [show 8 * i.val + j < 32 by omega]

/-- Settles O6: both directions byte by byte, from the byte lanes of `le64` and `w2b`. -/
theorem wordsAndBytesAreInverse : Obligations.WordsAndBytesAreInverse := by
  refine ⟨w2b_b2w, b2w_w2b, ?_⟩
  rintro w i j ⟨n, hn⟩ rfl
  exact (congrArg BitVec.toNat (w2b_get_lane w i j j.isLt)).trans (byteLane_toNat (word w i) j)

/-! Threefish-256, undone one operation at a time (40_threefish.md R76 to R81). -/

/-- Every amount of the two rotation tables is one `rotl64` is defined for (R77, R14). -/
theorem rotationTables_le (n : Nat) : rot0.getD (n % 8) 0 ≤ 63 ∧ rot1.getD (n % 8) 0 ≤ 63 := by
  have hall : ∀ i < 8, rot0.getD i 0 ≤ 63 ∧ rot1.getD i 0 ≤ 63 := by decide
  exact hall _ (Nat.mod_lt n (by decide))

/-- Adding a fixed Word256 can be undone. -/
theorem add256_right_cancel (a b s : Word256) (h : add256 a s = add256 b s) : a = b := by
  cases a; cases b
  simpa [add256] using h

/-- MIX can be undone: the sum is the first output, and the rotated word is the second one xor the sum (R78). -/
theorem mix_injective (r : Nat) (hr : r ≤ 63) (x0 x1 y0 y1 : Word64) (h : mix x0 x1 r = mix y0 y1 r) :
    x0 = y0 ∧ x1 = y1 := by
  obtain ⟨hsum, hxor⟩ := Prod.mk.inj h
  rw [hsum] at hxor
  have h1 : x1 = y1 := rotl64_injective r hr x1 y1 ((BitVec.xor_left_inj _).mp hxor)
  subst h1
  exact ⟨(BitVec.add_left_inj _).mp hsum, rfl⟩

theorem mixPermute_injective (n : Nat) (a b : Word256) (h : mixPermute a n = mixPermute b n) : a = b := by
  obtain ⟨h0, h3, h2, h1⟩ := Word256.mk.inj h
  obtain ⟨hr0, hr1⟩ := rotationTables_le n
  obtain ⟨e0, e1⟩ := mix_injective _ hr0 a.w0 a.w1 b.w0 b.w1 (Prod.ext h0 h1)
  obtain ⟨e2, e3⟩ := mix_injective _ hr1 a.w2 a.w3 b.w2 b.w3 (Prod.ext h2 h3)
  cases a; cases b
  simp_all

theorem injectBefore_injective (k : Word256) (t : Tweak128) (n : Nat) (a b : Word256)
    (h : injectBefore k t a n = injectBefore k t b n) : a = b := by
  unfold injectBefore at h
  split at h
  · exact add256_right_cancel a b _ h
  · exact h

theorem tfRound_injective (k : Word256) (t : Tweak128) (n : Nat) (a b : Word256)
    (h : tfRound k t a n = tfRound k t b n) : a = b :=
  injectBefore_injective k t n a b (mixPermute_injective n _ _ h)

theorem tfRounds_succ (k : Word256) (t : Tweak128) (n : Nat) (p : Word256) :
    tfRounds k t (n + 1) p = tfRound k t (tfRounds k t n p) n := by
  simp [tfRounds, List.range_succ]

theorem tfRounds_injective (k : Word256) (t : Tweak128) (n : Nat) (p q : Word256)
    (h : tfRounds k t n p = tfRounds k t n q) : p = q := by
  induction n with
  | zero => exact h
  | succ n ih =>
    rw [tfRounds_succ, tfRounds_succ] at h
    exact ih (tfRound_injective k t n _ _ h)

/-- Settles O13: the last injection, then the 72 rounds by induction on their number, each undone. -/
theorem threefishIsInjectiveInPlaintext : Obligations.ThreefishIsInjectiveInPlaintext := fun k t p q h =>
  tfRounds_injective k t 72 p q (add256_right_cancel _ _ _ h)

end Sys2Proof.Machine
end

section
/-! PROOFS of 10_state.md: the tweak's operations (O7 to O11), what registers read as and what commands read and write
(O27, O37, O38, O42), the start of a command (O47, O48) and the invariant (O55, O56). -/

namespace Sys2Proof.Machine

open Sys2Proof

/-! The tweak's fields after each setter (10_state.md R37 to R41). -/

@[simp] theorem getPos_setFirst (t : Tweak128) (b : Bool) : getPos (setFirst t b) = getPos t :=
  getPos_congr _ _ rfl fun i hi => by rw [setFirst_bit, if_neg (by omega)]

@[simp] theorem getPos_setFinal (t : Tweak128) (b : Bool) : getPos (setFinal t b) = getPos t :=
  getPos_congr _ _ rfl fun i hi => by rw [setFinal_bit, if_neg (by omega)]

@[simp] theorem getPos_advancePos (t : Tweak128) (n : Nat) :
    getPos (advancePos t n) = getPos t + BitVec.ofNat 96 n := getPos_setPos t _

@[simp] theorem getType_setPos (t : Tweak128) (p : BitVec 96) : getType (setPos t p) = getType t :=
  getType_congr _ _ fun i hi _ => setPos_bit t p i (by omega)

@[simp] theorem getType_setFirst (t : Tweak128) (b : Bool) : getType (setFirst t b) = getType t :=
  getType_congr _ _ fun i _ hi => by rw [setFirst_bit, if_neg (by omega)]

@[simp] theorem getType_setFinal (t : Tweak128) (b : Bool) : getType (setFinal t b) = getType t :=
  getType_congr _ _ fun i _ hi => by rw [setFinal_bit, if_neg (by omega)]

@[simp] theorem getType_setType (t : Tweak128) (c : BitVec 6) : getType (setType t c) = c := by
  apply BitVec.eq_of_getLsbD_eq
  intro i hi
  have hbit := setType_bit t c (56 + i) (by omega)
  rw [if_pos (by omega), Nat.add_sub_cancel_left] at hbit
  simpa [getType, hi] using hbit

@[simp] theorem getReserved_setPos (t : Tweak128) (p : BitVec 96) : getReserved (setPos t p) = getReserved t :=
  getReserved_congr _ _ fun i hi _ => setPos_bit t p i hi

@[simp] theorem getReserved_setFirst (t : Tweak128) (b : Bool) : getReserved (setFirst t b) = getReserved t :=
  getReserved_congr _ _ fun i _ hi => by rw [setFirst_bit, if_neg (by omega)]

@[simp] theorem getReserved_setFinal (t : Tweak128) (b : Bool) : getReserved (setFinal t b) = getReserved t :=
  getReserved_congr _ _ fun i _ hi => by rw [setFinal_bit, if_neg (by omega)]

@[simp] theorem getFirst_setPos (t : Tweak128) (p : BitVec 96) : getFirst (setPos t p) = getFirst t :=
  setPos_bit t p 62 (by decide)

@[simp] theorem getFirst_setFirst (t : Tweak128) (b : Bool) : getFirst (setFirst t b) = b := setFirst_bit t b 62

@[simp] theorem getFirst_setFinal (t : Tweak128) (b : Bool) : getFirst (setFinal t b) = getFirst t :=
  setFinal_bit t b 62

@[simp] theorem getFinal_setPos (t : Tweak128) (p : BitVec 96) : getFinal (setPos t p) = getFinal t :=
  setPos_bit t p 63 (by decide)

@[simp] theorem getFinal_setFirst (t : Tweak128) (b : Bool) : getFinal (setFirst t b) = getFinal t :=
  setFirst_bit t b 63

@[simp] theorem getFinal_setFinal (t : Tweak128) (b : Bool) : getFinal (setFinal t b) = b := setFinal_bit t b 63

/-! A tweak as a number (10_state.md R34, R38). -/

theorem setPos_value (t : Tweak128) (p : BitVec 96) :
    (setPos t p).t0.toNat + 2 ^ 64 * (setPos t p).t1.toNat =
      2 ^ 96 * ((t.t0.toNat + 2 ^ 64 * t.t1.toNat) / 2 ^ 96) + p.toNat := by
  have ht0 := t.t0.isLt
  rw [setPos_t0_toNat, setPos_t1_toNat]
  omega

theorem getPos_value (t : Tweak128) : (getPos t).toNat = (t.t0.toNat + 2 ^ 64 * t.t1.toNat) % 2 ^ 96 := by
  have ht0 := t.t0.isLt
  rw [getPos_toNat]
  omega

/-- Settles O7: as a number the new tweak is the old high bits and the new position. -/
theorem positionSetterKeepsHighBits : Obligations.PositionSetterKeepsHighBits := by
  intro t p n v t'
  have hset : v t' = 2 ^ 96 * (v t / 2 ^ 96) + p % 2 ^ 96 := by
    simpa only [BitVec.toNat_ofNat] using setPos_value t (BitVec.ofNat 96 p)
  have hadv : v (advancePos t n) = 2 ^ 96 * (v t / 2 ^ 96) + (v t % 2 ^ 96 + n) % 2 ^ 96 := by
    have := setPos_value t (getPos t + BitVec.ofNat 96 n)
    rwa [BitVec.toNat_add, BitVec.toNat_ofNat, getPos_value, Nat.add_mod_mod] at this
  have h0 := setPos_t0_toNat t (BitVec.ofNat 96 p)
  have h1 := setPos_t1_toNat t (BitVec.ofNat 96 p)
  rw [BitVec.toNat_ofNat] at h0 h1
  refine ⟨?_, ?_, h0.trans ?_, h1.trans ?_, ?_, ?_⟩ <;> omega

/-- Settles O8: bit by bit, byte 15 being the masked byte with the code ORed in. -/
theorem typeSetterKeepsEveryOtherBit : Obligations.TypeSetterKeepsEveryOtherBit := by
  intro t c t'
  refine ⟨getType_setType t c, setType_t0 t c, ?_, fun i hi hout => ?_⟩
  · apply BitVec.eq_of_getLsbD_eq
    intro i hi
    rw [BitVec.getLsbD_extractLsb', decide_eq_true hi, Bool.true_and]
    exact append_bit_hi _ _ _ i rfl
  · rw [setType_bit t c i hi, if_neg (by omega)]

/-- Settles O9: each flag setter by its bits. -/
theorem flagSettersChangeOneBit : Obligations.FlagSettersChangeOneBit := fun t b =>
  ⟨⟨getFirst_setFirst t b, setFirst_t0 t b, fun i _ hi => by rw [setFirst_bit, if_neg hi]⟩,
    ⟨getFinal_setFinal t b, setFinal_t0 t b, fun i _ hi => by rw [setFinal_bit, if_neg hi]⟩, rfl, rfl⟩

/-! The raw bytes of a tweak (10_state.md R42). -/

theorem bytes64_getD (w : Word64) (k : Nat) (hk : k < 8) : (bytes64 w).getD k 0 = byteLane w k := by
  simp [bytes64, hk]

@[simp] theorem bytes64_length (w : Word64) : (bytes64 w).length = 8 := by simp [bytes64]

theorem tweakBytes_getD_low (t : Tweak128) (k : Nat) (hk : k < 8) : (tweakBytes t).getD k 0 = byteLane t.t0 k := by
  rw [tweakBytes, List.getD_append _ _ _ _ (by simpa using hk), bytes64_getD _ _ hk]

theorem tweakBytes_getD_high (t : Tweak128) (k : Nat) (hk : k < 8) :
    (tweakBytes t).getD (8 + k) 0 = byteLane t.t1 k := by
  rw [tweakBytes, List.getD_append_right _ _ _ _ (by simp), bytes64_length, Nat.add_sub_cancel_left,
    bytes64_getD _ _ hk]

/-- Byte `k` of the tweak as a number, in the half that holds it. -/
theorem tweakBytes_value (t : Tweak128) (k : Nat) (hk : k < 16) :
    ((tweakBytes t).getD k 0).toNat = (t.t0.toNat + 2 ^ 64 * t.t1.toNat) / 2 ^ (8 * k) % 2 ^ 8 := by
  have ht0 := t.t0.isLt
  by_cases hlow : k < 8
  · rw [tweakBytes_getD_low t k hlow, byteLane_toNat]
    interval_cases k <;> omega
  · obtain ⟨j, rfl⟩ := Nat.exists_eq_add_of_le (Nat.not_lt.1 hlow)
    have hword : (t.t0.toNat + 2 ^ 64 * t.t1.toNat) / 2 ^ 64 = t.t1.toNat := by omega
    rw [tweakBytes_getD_high t j (by omega), byteLane_toNat, Nat.mul_add, Nat.pow_add, ← Nat.div_div_eq_div_mul, hword]

/-- Settles O11: bytes 0 to 7 are the lanes of `t0`, bytes 8 to 15 those of `t1`. -/
theorem tweakBytesAreLittleEndian : Obligations.TweakBytesAreLittleEndian := by
  intro t
  have h15 : (tweakBytes t).getD 15 0 = byteLane t.t1 7 := tweakBytes_getD_high t 7 (by decide)
  refine ⟨by simp [tweakBytes], rfl, tweakBytes_value t, ?_, ?_⟩ <;> rw [h15]
  · simp [byteLane, getFirst]
  · simp [byteLane, getFinal]

/-! Made tweaks (10_state.md R43): each field over the 256 tweaks `mkTweak` can build. -/

@[simp] theorem getType_mkTweak (c : BitVec 6) (first final : Bool) : getType (mkTweak c first final) = c := by
  revert c first final; decide

@[simp] theorem getFirst_mkTweak (c : BitVec 6) (first final : Bool) : getFirst (mkTweak c first final) = first := by
  revert c first final; decide

@[simp] theorem getFinal_mkTweak (c : BitVec 6) (first final : Bool) : getFinal (mkTweak c first final) = final := by
  revert c first final; decide

@[simp] theorem getPos_mkTweak (c : BitVec 6) (first final : Bool) : getPos (mkTweak c first final) = 0 := by
  revert c first final; decide

@[simp] theorem getReserved_mkTweak (c : BitVec 6) (first final : Bool) : getReserved (mkTweak c first final) = 0 := by
  revert c first final; decide

theorem mkTweak_t1_toNat (c : BitVec 6) (first final : Bool) :
    (mkTweak c first final).t1.toNat = final.toNat * 2 ^ 63 + first.toNat * 2 ^ 62 + c.toNat * 2 ^ 56 := by
  revert c first final; decide

/-- Settles O10: field by field. -/
theorem madeTweakHasItsFields : Obligations.MadeTweakHasItsFields := fun c first final =>
  ⟨getType_mkTweak c first final, getFirst_mkTweak c first final, getFinal_mkTweak c first final,
    getPos_mkTweak c first final, getReserved_mkTweak c first final, rfl, mkTweak_t1_toNat c first final⟩

/-! What the registers read as (10_state.md R31; 20_memory.md R50). -/

theorem append_toNat {n m : Nat} (x : BitVec n) (y : BitVec m) : (x ++ y).toNat = 2 ^ m * x.toNat + y.toNat := by
  rw [BitVec.toNat_append, ← Nat.shiftLeft_add_eq_or_of_lt y.isLt, Nat.shiftLeft_eq, Nat.mul_comm]

theorem statusWord_toNat (b : Bool) (g : Regs) :
    (statusWord b g).toNat =
      b.toNat + 2 ^ 4 * (errCode g.err).toNat + 2 ^ 8 * (cstateCode g.ctx.cstate).toNat + 2 ^ 16 * g.ctx.bcnt.val := by
  have hbcnt : (BitVec.ofNat 6 g.ctx.bcnt.val).toNat = g.ctx.bcnt.val := by
    rw [BitVec.toNat_ofNat, Nat.mod_eq_of_lt (by omega)]
  simp only [statusWord, append_toNat, hbcnt, BitVec.toNat_ofBool, BitVec.toNat_ofNat]
  omega

theorem busy_toNat (s : State) : (busy s).toNat = if s.engine = none then 0 else 1 := by
  cases h : s.engine <;> simp [busy, h]

/-- Settles O42: STATUS as a number, the buffer through `B2W`; the other registers are their fields. -/
theorem registersReadAsTheirFields : Obligations.RegistersReadAsTheirFields := by
  intro s
  refine ⟨rfl, rfl, rfl, ⟨rfl, rfl, rfl, rfl⟩, ⟨rfl, rfl⟩, ⟨rfl, rfl, rfl, rfl⟩, ⟨rfl, rfl, rfl, rfl⟩,
    ⟨rfl, rfl, rfl, rfl⟩, ⟨rfl, rfl⟩, fun i => (word_b2w s.regs.ctx.buf i).symm, ?_⟩
  rw [readReg, statusWord_toNat, busy_toNat]
  cases s.regs.err <;> cases s.regs.ctx.cstate <;> rfl

/-! Which registers a command depends on and which it writes (10_state.md R18 to R23). -/

/-- The bytes of CTX_UPDATE are lanes 0 to n-1 of DIN and no other. -/
theorem dinBytes_congr (d d' : Word64) (n : Nat) (h : ∀ j, j < n → d.extractLsb' (8 * j) 8 = d'.extractLsb' (8 * j) 8) :
    dinBytes d n = dinBytes d' n :=
  List.map_congr_left fun j hj => h j (List.mem_range.1 hj)

/-- Settles O27: in READY both absorb the same bytes, and outside READY both fail. -/
theorem ctxUpdateIgnoresLanesPastLen : Obligations.CtxUpdateIgnoresLanesPastLen := by
  intro s din' n hn hlanes
  by_cases hr : s.regs.ctx.cstate = .ready
  · refine ⟨_, _, exec_ctxUpdate n s hn hr, exec_ctxUpdate n _ hn hr, ?_⟩
    simp only [finish, dinBytes_congr _ _ n hlanes]
  · exact ⟨_, _, exec_ctxUpdate_invalid n s hn hr, exec_ctxUpdate_invalid n _ hn hr, rfl⟩

/-! The frame of a command, field by field of the registers. -/

theorem execShape_key {i : Instr} {s t : State} (hs : ExecShape i s t) (h : commandWrites i (.key 0) = false) :
    t.regs.key = s.regs.key := by
  cases hs with
  | block _ _ _ _ hi => subst hi; cases h
  | _ => rfl

theorem execShape_twk {i : Instr} {s t : State} (hs : ExecShape i s t) (h : commandWrites i (.twk 0) = false) :
    t.regs.twk = s.regs.twk := by
  cases hs with
  | block _ _ _ _ hi => subst hi; cases h
  | _ => rfl

theorem execShape_res {i : Instr} {s t : State} (hs : ExecShape i s t) (h : commandWrites i (.res 0) = false) :
    t.regs.res = s.regs.res := by
  cases hs with
  | cipher _ hi => subst hi; cases h
  | block _ _ _ _ hi => subst hi; cases h
  | final _ _ hi => subst hi; cases h
  | _ => rfl

theorem execShape_ctx {i : Instr} {s t : State} (hs : ExecShape i s t) (h : commandWrites i (.cv 0) = false) :
    t.regs.ctx = s.regs.ctx := by
  cases hs with
  | init _ _ hi => rcases hi with rfl | rfl <;> cases h
  | update _ _ hi => subst hi; cases h
  | final _ _ hi => subst hi; cases h
  | _ => rfl

theorem execShape_regs_only {i : Instr} {s t : State} (hs : ExecShape i s t) :
    t = { s with regs := t.regs } ∧ t.regs.blk = s.regs.blk ∧ t.regs.din = s.regs.din := by
  cases hs <;> exact ⟨rfl, rfl, rfl⟩

theorem execShape_readReg {i : Instr} {s t : State} (hs : ExecShape i s t) (r : Reg) (h : commandWrites i r = false) :
    readReg t r = readReg s r := by
  obtain ⟨-, hblk, hdin⟩ := execShape_regs_only hs
  cases r with
  | cmd => rfl
  | status => cases h
  | key j => exact congrArg (word · j) (execShape_key hs h)
  | twk j => exact congrArg (tweakWord · j) (execShape_twk hs h)
  | blk j => exact congrArg (word · j) hblk
  | res j => exact congrArg (word · j) (execShape_res hs h)
  | din => exact hdin
  | id => rfl
  | cv j => exact congrArg (word ·.cv j) (execShape_ctx hs h)
  | ctw j => exact congrArg (tweakWord ·.ctw j) (execShape_ctx hs h)
  | cbuf j => exact congrArg (fun c : Context => le64 c.buf.toList (8 * j.val)) (execShape_ctx hs h)

/-- Settles O37: the frame of each register, from that of its field. -/
theorem commandsWriteOnlyTheirRegisters : Obligations.CommandsWriteOnlyTheirRegisters := by
  intro i s t h
  have hs := shape_of_exec h
  obtain ⟨hregs, hblk, hdin⟩ := execShape_regs_only hs
  exact ⟨hregs, execShape_readReg hs, execShape_ctx hs, hblk, hdin⟩

/-- Settles O38: with other operands each command takes the same case of its rule. -/
theorem contextCommandsIgnoreOperandRegisters : Obligations.ContextCommandsIgnoreOperandRegisters := by
  intro s key blk res twk i hi
  rcases hi with rfl | rfl | ⟨n, rfl⟩ | rfl
  · exact ⟨_, _, exec_ctxInit s, exec_ctxInit _, rfl, rfl⟩
  · exact ⟨_, _, exec_ctxInitCfg s, exec_ctxInitCfg _, rfl, rfl⟩
  · by_cases hn : 8 < n
    · exact ⟨_, _, exec_ctxUpdate_illegal n s hn, exec_ctxUpdate_illegal n _ hn, rfl, rfl⟩
    by_cases hr : s.regs.ctx.cstate = .ready
    · exact ⟨_, _, exec_ctxUpdate n s (Nat.not_lt.1 hn) hr, exec_ctxUpdate n _ (Nat.not_lt.1 hn) hr, rfl, rfl⟩
    · exact ⟨_, _, exec_ctxUpdate_invalid n s (Nat.not_lt.1 hn) hr, exec_ctxUpdate_invalid n _ (Nat.not_lt.1 hn) hr,
        rfl, rfl⟩
  · by_cases hr : s.regs.ctx.cstate = .ready
    · exact ⟨_, _, exec_ctxFinal s hr, exec_ctxFinal _ hr, rfl, (if_pos ⟨rfl, hr⟩).symm⟩
    · exact ⟨_, _, exec_ctxFinal_invalid s hr, exec_ctxFinal_invalid _ hr, rfl, (if_neg fun h => hr h.2).symm⟩

/-! The start of a command (10_state.md R30, R32). -/

/-- A CMD write outside the hazard, from an idle engine, starts what its word says. -/
theorem step_cmd_write (s t : State) (w : Word64) (rest : List Event) (he : s.engine = none)
    (hz : s.strictHazard = false ∨ s.unconfirmed = false) (hs : s.script = .write (256 * s.basePage) 8 w :: rest)
    (ht : runWord w { s with script := rest } = .next t) :
    step s = .next (launch { s with script := rest } t) := by
  have hidle : busy { s with script := rest } = false := by simp [busy, he]
  have hnot : inHazard { s with script := rest } = false := not_inHazard _ hidle hz
  calc step s = eventStep (.write (256 * s.basePage) 8 w) { s with script := rest } := step_of_idle s _ rest he hs
    _ = writeStep (offsetOf .cmd) w { s with script := rest } := eventStep_write_reg _ .cmd w
    _ = .next (launch { s with script := rest } t) := by rw [writeStep_cmd w _ hnot, writeCmd, ht]

theorem exec_next (i : Instr) (s : State) : ∃ t, exec i s = .next t := (exec_shape i s).imp fun _ h => h.1

theorem decodeNoFin_ok {m : Nat} {i j : Instr} {w : Word64} (h : decodeNoFin m i w = .ok j) :
    (lenField w).toNat ≤ m ∧ finField w = false := by
  unfold decodeNoFin at h
  split_ifs at h with hlen hfin
  exact ⟨Nat.not_lt.1 hlen, Bool.eq_false_iff.2 hfin⟩

/-- A command without a free field decodes only with LEN = 0 and FIN = 0 (30_encoding.md R64). -/
theorem decodeNoFin_zero_ok {i j : Instr} {w : Word64} (h : decodeNoFin 0 i w = .ok j) :
    lenField w = 0#6 ∧ finField w = false :=
  (decodeNoFin_ok h).imp_left fun hlen => BitVec.eq_of_toNat_eq (Nat.le_zero.1 hlen)

/-- A word that decodes is legal (30_encoding.md R64, R65). -/
theorem legal_of_decode {w : Word64} {i : Instr} (h : decode w = .ok i) : legal w = true := by
  unfold decode at h
  split_ifs at h with hrsv h01 h02 hlen h10 h11 h12 h13
  · simp [legal, not_not.1 hrsv, h01, decodeNoFin_zero_ok h]
  · simp [legal, not_not.1 hrsv, h02, Nat.not_lt.1 hlen]
  · simp [legal, not_not.1 hrsv, h10, decodeNoFin_zero_ok h]
  · simp [legal, not_not.1 hrsv, h11, decodeNoFin_zero_ok h]
  · simp [legal, not_not.1 hrsv, h12, decodeNoFin_ok h]
  · simp [legal, not_not.1 hrsv, h13, decodeNoFin_zero_ok h]

theorem decode_error_of_illegal {w : Word64} (h : legal w = false) : ∃ e, decode w = .error e := by
  cases hd : decode w with
  | error e => exact ⟨e, rfl⟩
  | ok i => exact absurd (legal_of_decode hd) (by simp [h])

/-- Settles O47: the step launches what `runWord` gives. -/
theorem stepRunsDecodedCommand : Obligations.StepRunsDecodedCommand := by
  intro s w rest he hz hs launched
  refine ⟨fun i hi => ?_, fun hw => ?_⟩
  · obtain ⟨t, ht⟩ := exec_next i { s with script := rest }
    exact ⟨t, ht, step_cmd_write s t w rest he hz hs ((runWord_of_ok _ hi).trans ht)⟩
  · obtain ⟨e, herr⟩ := decode_error_of_illegal hw
    exact step_cmd_write s _ w rest he hz hs (runWord_of_error _ herr)

theorem tableCommandWord_toNat (w : Word64) : tableCommandWord 64 w.toNat = w := by
  rw [tableCommandWord, Nat.mod_eq_of_lt w.isLt, BitVec.ofNat_toNat, BitVec.setWidth_eq]

/-- Settles O48: `withFetchWord` leaves the engine idle and the CMD write next. -/
theorem placedCommandRunsNext : Obligations.PlacedCommandRunsNext := by
  intro s w i hi
  obtain ⟨t, ht⟩ := exec_next i { s with engine := none, unconfirmed := false }
  refine ⟨t, launch { placeCommand w s with script := s.script } t, ht, ?_, rfl, rfl, rfl⟩
  rw [State.withFetchWord, tableCommandWord_toNat]
  exact step_cmd_write (placeCommand w s) t w s.script rfl (.inr rfl) rfl ((runWord_of_ok _ hi).trans ht)

/-! The tweak after blocks (41_ubi.md R84; 42_skein_context.md R98). -/

@[simp] theorem getPos_ubiBlock (g : Word256) (t : Tweak128) (b : Bytes32) (n : Nat) (f : Bool) :
    getPos (ubiBlock g t b n f).2 = getPos t + BitVec.ofNat 96 n := by
  cases f <;> simp [ubiBlock, blockTweak]

@[simp] theorem getType_ubiBlock (g : Word256) (t : Tweak128) (b : Bytes32) (n : Nat) (f : Bool) :
    getType (ubiBlock g t b n f).2 = getType t := by
  cases f <;> simp [ubiBlock, blockTweak, advancePos]

@[simp] theorem getReserved_ubiBlock (g : Word256) (t : Tweak128) (b : Bytes32) (n : Nat) (f : Bool) :
    getReserved (ubiBlock g t b n f).2 = getReserved t := by
  cases f <;> simp [ubiBlock, blockTweak, advancePos]

@[simp] theorem getFinal_ubiBlock (g : Word256) (t : Tweak128) (b : Bytes32) (n : Nat) (f : Bool) :
    getFinal (ubiBlock g t b n f).2 = (f || getFinal t) := by
  cases f <;> simp [ubiBlock, blockTweak, advancePos]

@[simp] theorem getFirst_ubiBlock (g : Word256) (t : Tweak128) (b : Bytes32) (n : Nat) (f : Bool) :
    getFirst (ubiBlock g t b n f).2 = false := getFirst_setFirst _ _

/-- What `k` blocks of 32 bytes that are not the last make of the tweak `t`. -/
structure FlushedTweak (t : Tweak128) (k : Nat) (u : Tweak128) : Prop where
  pos : getPos u = getPos t + BitVec.ofNat 96 (32 * k)
  type : getType u = getType t
  reserved : getReserved u = getReserved t
  final : getFinal u = getFinal t
  first : getFirst u = (getFirst t && k == 0)

theorem flushBlocks_tweak (bytes : List Byte) (gt : Word256 × Tweak128) (k : Nat) :
    FlushedTweak gt.2 k ((List.range k).foldl (flushBlock bytes) gt).2 := by
  induction k with
  | zero => exact ⟨by simp, rfl, rfl, rfl, by simp⟩
  | succ k ih =>
    rw [List.range_succ, List.foldl_append, List.foldl_cons, List.foldl_nil, flushBlock]
    refine ⟨?_, by simp [ih.type], by simp [ih.reserved], by simp [ih.final], by simp⟩
    rw [getPos_ubiBlock, ih.pos, BitVec.add_assoc, ← BitVec.ofNat_add, Nat.mul_succ]

/-- Whole blocks keep the position's remainder, also when it wraps at 2^96. -/
theorem FlushedTweak.pos_mod {t u : Tweak128} {k : Nat} (h : FlushedTweak t k u) :
    (getPos u).toNat % 32 = (getPos t).toNat % 32 := by
  rw [h.pos, BitVec.toNat_add, BitVec.toNat_ofNat]
  omega

/-! The invariant of the context (10_state.md R25, R26, R29). -/

theorem contextInv_reset : ContextInv Context.reset where
  tail_zero := by decide
  idle_reset := fun _ => rfl
  ready_tweak := fun h => by cases h
  closed_tweak := fun h => by cases h

theorem zero32_get (j : Fin 32) : zero32[j] = 0 := by simp [zero32]

theorem contextInv_newContext (cv : Word256) : ContextInv (newContext cv) where
  tail_zero j _ := zero32_get j
  idle_reset h := by cases h
  closed_tweak h := by cases h
  ready_tweak _ :=
    { type_msg := getType_mkTweak _ _ _
      final_clear := getFinal_mkTweak _ _ _
      reserved_zero := getReserved_mkTweak _ _ _
      whole_blocks := by simp [newContext]
      first_at_start := fun _ => getPos_mkTweak _ _ _
      buffered_after_flush := fun h => by simp [newContext] at h }

theorem contextInv_closedContext (c : Context) (h : ReadyTweak c) : ContextInv (closedContext c) where
  tail_zero j _ := zero32_get j
  idle_reset h := by cases h
  ready_tweak h := by cases h
  closed_tweak _ :=
    { type_msg := by simp [closedContext, finalBlock, h.type_msg]
      final_set := by simp [closedContext, finalBlock]
      first_clear := by simp [closedContext, finalBlock]
      reserved_zero := by simp [closedContext, finalBlock, h.reserved_zero]
      empty := rfl }

/-- A READY context is sound when its buffer is zero past BCNT and its tweak is one of a message being absorbed. -/
theorem contextInv_of_ready {c : Context} (hr : c.cstate = .ready)
    (htail : ∀ j : Fin 32, c.bcnt.val ≤ j.val → c.buf[j] = 0) (ht : ReadyTweak c) : ContextInv c where
  tail_zero := htail
  idle_reset h := by simp [hr] at h
  ready_tweak _ := ht
  closed_tweak h := by simp [hr] at h

theorem readyTweak_absorbFlush (c : Context) (d : List Byte) (hlen : 32 < c.bcnt.val + d.length) (h : ReadyTweak c) :
    ReadyTweak (absorbFlush c d) := by
  have hk : flushCount (c.bcnt.val + d.length) ≠ 0 := by unfold flushCount; omega
  have hf : FlushedTweak c.ctw (flushCount (c.bcnt.val + d.length)) (absorbFlush c d).ctw :=
    flushBlocks_tweak (pendingBytes c d) (c.cv, c.ctw) _
  have hfirst : getFirst (absorbFlush c d).ctw = false := by simp [hf.first, hk]
  exact
    { type_msg := hf.type.trans h.type_msg
      final_clear := hf.final.trans h.final_clear
      reserved_zero := hf.reserved.trans h.reserved_zero
      whole_blocks := hf.pos_mod.trans h.whole_blocks
      first_at_start := fun ht => absurd ht (by simp [hfirst])
      buffered_after_flush := fun _ => by simp only [absorbFlush, flushCount]; omega }

theorem absorbFlush_tail_zero (c : Context) (d : List Byte) (j : Fin 32) (hj : (absorbFlush c d).bcnt.val ≤ j.val) :
    (absorbFlush c d).buf[j] = 0 :=
  (pad32_get _ _ j.val j.isLt).trans (if_neg (Nat.not_lt.2 hj))

/-- Bytes that fit stay in the buffer: the tweak is as it was, and BCNT grows. -/
theorem contextInv_absorb_small (c : Context) (d : List Byte) (h0 : d.length ≠ 0) (hlen : c.bcnt.val + d.length ≤ 32)
    (hr : c.cstate = .ready) (h : ContextInv c) : ContextInv (absorb c d) := by
  have ht := h.ready_tweak hr
  rw [absorb_small c d h0 hlen]
  refine contextInv_of_ready hr (fun j hj => ?_)
    ⟨ht.type_msg, ht.final_clear, ht.reserved_zero, ht.whole_blocks, ht.first_at_start, fun _ => ?_⟩
  · have hj : c.bcnt.val + d.length ≤ j.val := hj
    exact (bufAppend_get _ _ _ j.val j.isLt).trans <| (if_neg (by omega)).trans <| h.tail_zero j (by omega)
  · show 1 ≤ c.bcnt.val + d.length
    omega

theorem contextInv_absorb (c : Context) (d : List Byte) (hr : c.cstate = .ready) (h : ContextInv c) :
    ContextInv (absorb c d) := by
  by_cases h0 : d.length = 0
  · rwa [List.eq_nil_of_length_eq_zero h0, absorb_nil]
  by_cases hlen : c.bcnt.val + d.length ≤ 32
  · exact contextInv_absorb_small c d h0 hlen hr h
  · have hlen := Nat.not_le.1 hlen
    rw [absorb_flush c d hlen]
    exact contextInv_of_ready hr (absorbFlush_tail_zero c d) (readyTweak_absorbFlush c d hlen (h.ready_tweak hr))

/-- A command leaves a sound context when it finds one. -/
theorem execShape_contextInv {i : Instr} {s t : State} (hs : ExecShape i s t) (h : ContextInv s.regs.ctx) :
    ContextInv t.regs.ctx := by
  cases hs with
  | init cv => exact contextInv_newContext cv
  | update c n _ hr hc => exact hc ▸ contextInv_absorb _ _ hr h
  | final r c _ hr hc => exact hc ▸ contextInv_closedContext _ (h.ready_tweak hr)
  | _ => exact h

theorem runWord_contextInv {w : Word64} {s t : State} (ht : runWord w s = .next t) (h : ContextInv s.regs.ctx) :
    ContextInv t.regs.ctx := by
  rcases runWord_cases w s with ⟨e, -, hw⟩ | ⟨i, u, -, hw, hs⟩
  · rw [← next_injective (hw.symm.trans ht)]
    exact h
  · rw [← next_injective (hw.symm.trans ht)]
    exact execShape_contextInv hs h

/-! One event, once: what its next state can be. -/

/-- The next states of the host's or the platform's part of a cycle. -/
inductive EventShape (s : State) : State → Prop where
  | read (off : BitVec 8) : EventShape s (readStep off s)
  | write (g : Regs) (hg : g.ctx = s.regs.ctx) (hz : inHazard s = false) : EventShape s (writtenState g s)
  | command (w : Word64) (u : State) (hu : runWord w s = .next u) (hz : inHazard s = false) : EventShape s (launch s u)
  | wait : EventShape s (waitStep s)
  | idle : EventShape s s
  | reset : EventShape s (resetStep s)

theorem writeStep_shape {off : BitVec 8} {v : Word64} {s t : State} (h : writeStep off v s = .next t) :
    EventShape s t := by
  have hz : inHazard s = false := by
    by_contra hz
    rw [writeStep_of_hazard _ _ _ (Bool.not_eq_false _ ▸ hz)] at h
    cases h
  unfold writeStep at h
  rw [hz, if_neg Bool.false_ne_true] at h
  split at h
  · rw [← next_injective h]; exact .write _ rfl hz
  · obtain ⟨u, hu, hw⟩ := writeCmd_cases v s
    rw [← next_injective (hw.symm.trans h)]; exact .command v u hu hz
  · rw [← next_injective h]; exact .write _ (writeReg_ctx _ _ _) hz

theorem eventStep_shape {e : Event} {s t : State} (h : eventStep e s = .next t) : EventShape s t := by
  cases e with
  | read addr bytes =>
    simp only [eventStep] at h
    split at h
    · cases h
    · split_ifs at h
      rw [← next_injective h]; exact .read _
  | write addr bytes v =>
    simp only [eventStep] at h
    split at h
    · cases h
    · split_ifs at h
      exact writeStep_shape h
  | wait => rw [← next_injective h]; exact .wait
  | idle => rw [← next_injective h]; exact .idle
  | reset => rw [← next_injective h]; exact .reset

/-! The invariant of the machine. -/

theorem inv_engineStep (s : State) (h : s.Inv) : (engineStep s).Inv := by
  cases he : s.engine with
  | none => rwa [engineStep_idle s he]
  | some p =>
    by_cases hp : p.cyclesLeft ≤ 1
    · rw [engineStep_last s p he hp]
      exact ⟨h.result p he, nofun, nofun, fun hne => absurd rfl hne⟩
    · rw [engineStep_running s p he (Nat.not_le.1 hp)]
      refine ⟨h.context, ?_, ?_, fun _ => h.unread (by simp [he])⟩ <;> rintro _ ⟨⟩
      · exact h.result p he
      · exact Nat.le_sub_one_of_lt (Nat.not_le.1 hp)

/-- The invariant speaks of the context and the engine, and of `unconfirmed` only while a command is in flight. -/
theorem inv_of_same_engine {s t : State} (h : s.Inv) (hctx : t.regs.ctx = s.regs.ctx) (he : t.engine = s.engine)
    (hu : s.engine ≠ none → t.unconfirmed = s.unconfirmed) : t.Inv :=
  ⟨hctx ▸ h.context, he ▸ h.result, he ▸ h.running, fun hne => (hu (he ▸ hne)).trans (h.unread (he ▸ hne))⟩

/-- A read ends the interval of R124 only with BUSY = 0. -/
theorem readStep_unconfirmed_of_busy (off : BitVec 8) (s : State) (h : s.engine ≠ none) :
    (readStep off s).unconfirmed = s.unconfirmed := by
  have hb : busy s = true := Option.isSome_iff_ne_none.2 h
  simp [readStep, hb]

theorem waitStep_unconfirmed (s : State) :
    (waitStep s).unconfirmed = (readStep (offsetOf .status) s).unconfirmed := by
  unfold waitStep; dsimp only; split <;> rfl

theorem eventShape_inv {s t : State} (hs : EventShape s t) (h : s.Inv) : t.Inv := by
  cases hs with
  | read off => exact inv_of_same_engine h rfl rfl (readStep_unconfirmed_of_busy off s)
  | write g hg hz => exact inv_of_same_engine h hg rfl fun _ => rfl
  | command w u hu hz =>
    refine ⟨h.context, ?_, ?_, fun _ => rfl⟩ <;> rintro _ ⟨⟩
    · exact runWord_contextInv hu h.context
    · exact Nat.succ_pos _
  | wait =>
    exact inv_of_same_engine h (congrArg Regs.ctx (waitStep_regs s)) (waitStep_engine s) fun hne =>
      (waitStep_unconfirmed s).trans (readStep_unconfirmed_of_busy _ s hne)
  | idle => exact h
  | reset => exact ⟨contextInv_reset, nofun, nofun, fun hne => absurd rfl hne⟩

/-- Settles O55: reset leaves no command in flight and a context that is the reset one. -/
theorem invariantHoldsAtReset : Obligations.InvariantHoldsAtReset :=
  ⟨contextInv_reset, nofun, nofun, fun hne => absurd rfl hne⟩

/-- Settles O56: the engine's part of the cycle keeps the invariant, and so does each event. -/
theorem stepKeepsInvariant : Obligations.StepKeepsInvariant := by
  intro s t h hstep
  have hengine := inv_engineStep s h
  cases hscript : s.script with
  | nil =>
    rw [← next_injective ((step_of_nil s hscript).symm.trans hstep)]
    exact hengine
  | cons e rest =>
    have hevent := eventStep_shape ((step_of_cons s e rest hscript).symm.trans hstep)
    exact eventShape_inv hevent (inv_of_same_engine hengine rfl rfl fun _ => rfl)

end Sys2Proof.Machine
end

section
/-! PROOFS of 20_memory.md: host accesses through the window (O41, O43 to O46, O58), the latency of a command (O49) and
the results at its completion (O60). -/

namespace Sys2Proof.Machine

open Sys2Proof

/-! Where an access falls (20_memory.md R49, R53). -/

/-- A host address inside the window of the page `p`. -/
def InWindow (p a : Nat) : Prop := 256 * p ≤ a ∧ a < 256 * p + 256

/-- The host's next entry is an access of `b` bytes at `a`. -/
def NextAccess (s : State) (a b : Nat) : Prop :=
  s.script.head? = some (.read a b) ∨ ∃ v, s.script.head? = some (.write a b v)

theorem windowOffset_of_inWindow {s : State} {p a : Nat} (hp : s.basePage = p) (h : InWindow p a) :
    windowOffset s a = some (BitVec.ofNat 8 (a - 256 * p)) := by
  subst hp; exact if_pos h

theorem windowOffset_of_not_inWindow {s : State} {p a : Nat} (hp : s.basePage = p) (h : ¬ InWindow p a) :
    windowOffset s a = none := by
  subst hp; exact if_neg h

theorem supported_iff (off : BitVec 8) (b : Nat) : supported off b = true ↔ b = 8 ∧ off.toNat % 8 = 0 := by
  simp [supported, BitVec.toNat_eq]

/-- BASE is a multiple of 8, so an address is aligned when its offset is. -/
theorem supported_address_iff {p a : Nat} (h : InWindow p a) (b : Nat) :
    supported (BitVec.ofNat 8 (a - 256 * p)) b = true ↔ b = 8 ∧ a % 8 = 0 := by
  obtain ⟨hlow, hhigh⟩ := h
  rw [supported_iff, BitVec.toNat_ofNat]
  exact and_congr_right fun _ => by omega

theorem eventStep_read_outside {s : State} {p a : Nat} (hp : s.basePage = p) (h : ¬ InWindow p a) (b : Nat) :
    eventStep (.read a b) s = .refused .outsideWindow := by
  simp only [eventStep, windowOffset_of_not_inWindow hp h]

theorem eventStep_write_outside {s : State} {p a : Nat} (hp : s.basePage = p) (h : ¬ InWindow p a) (b : Nat)
    (v : Word64) : eventStep (.write a b v) s = .refused .outsideWindow := by
  simp only [eventStep, windowOffset_of_not_inWindow hp h]

theorem eventStep_read_inside {s : State} {p a : Nat} (hp : s.basePage = p) (h : InWindow p a) (b : Nat) :
    eventStep (.read a b) s =
      if b = 8 ∧ a % 8 = 0 then .next (readStep (BitVec.ofNat 8 (a - 256 * p)) s) else .fault .unsupportedAccess := by
  simp only [eventStep, windowOffset_of_inWindow hp h, supported_address_iff h]

theorem eventStep_write_inside {s : State} {p a : Nat} (hp : s.basePage = p) (h : InWindow p a) (b : Nat)
    (v : Word64) :
    eventStep (.write a b v) s =
      if b = 8 ∧ a % 8 = 0 then writeStep (BitVec.ofNat 8 (a - 256 * p)) v s else .fault .unsupportedAccess := by
  simp only [eventStep, windowOffset_of_inWindow hp h, supported_address_iff h]

/-! The host's part of the cycle comes after the engine's (70_reset_and_hazards.md R124). -/

/-- The state the host's part of a cycle finds: the engine has advanced, and `rest` is still to come. -/
def hostTurn (s : State) (rest : List Event) : State := { engineStep s with script := rest }

@[simp] theorem hostTurn_basePage (s : State) (rest : List Event) : (hostTurn s rest).basePage = s.basePage :=
  engineStep_basePage s

theorem hostTurn_idle {s : State} (rest : List Event) (h : s.engine = none) :
    hostTurn s rest = { s with script := rest } := by rw [hostTurn, engineStep_idle s h]

theorem hostTurn_last {s : State} {p : InFlight} (rest : List Event) (h : s.engine = some p) (hp : p.cyclesLeft ≤ 1) :
    hostTurn s rest = { s with regs := p.result, engine := none, script := rest } := by
  rw [hostTurn, engineStep_last s p h hp]

theorem step_eq_eventStep {s : State} {e : Event} {rest : List Event} (h : s.script = e :: rest) :
    step s = eventStep e (hostTurn s rest) := step_of_cons s e rest h

theorem step_of_head {s : State} {e : Event} (h : s.script.head? = some e) :
    step s = eventStep e (hostTurn s s.script.tail) := step_eq_eventStep (List.cons_head?_tail h).symm

theorem busy_of_engine_none {s : State} (h : s.engine = none) : busy s = false := by simp [busy, h]

theorem busy_engineStep_iff (s : State) : busy (engineStep s) = true ↔ ∃ p, s.engine = some p ∧ 1 < p.cyclesLeft := by
  cases he : s.engine with
  | none => simp [engineStep_idle s he, busy, he]
  | some p =>
    by_cases hp : p.cyclesLeft ≤ 1
    · simp [engineStep_last s p he hp, busy, hp]
    · simp [engineStep_running s p he (Nat.not_le.1 hp), busy, Nat.not_le.1 hp]

/-- The busy hazard as the host's part of a cycle meets it. -/
def HazardAtHost (s : State) : Prop :=
  (∃ p, s.engine = some p ∧ 1 < p.cyclesLeft) ∨ (s.strictHazard = true ∧ s.unconfirmed = true)

theorem inHazard_hostTurn_iff (s : State) (rest : List Event) : inHazard (hostTurn s rest) = true ↔ HazardAtHost s := by
  rw [HazardAtHost, ← busy_engineStep_iff]
  simp [inHazard, hostTurn, busy]

/-! Each stop of a step (20_memory.md R49, R53; 93_implementation_defined.md U2). -/

theorem step_of_outside {s : State} {a b : Nat} (hw : ¬ InWindow s.basePage a) (h : NextAccess s a b) :
    step s = .refused .outsideWindow := by
  rcases h with h | ⟨v, h⟩ <;> rw [step_of_head h]
  · exact eventStep_read_outside (hostTurn_basePage s _) hw b
  · exact eventStep_write_outside (hostTurn_basePage s _) hw b v

theorem step_of_unsupported {s : State} {a b : Nat} (hw : InWindow s.basePage a) (hb : b ≠ 8 ∨ a % 8 ≠ 0)
    (h : NextAccess s a b) : step s = .fault .unsupportedAccess := by
  have hbad : ¬ (b = 8 ∧ a % 8 = 0) := not_and_or.2 hb
  rcases h with h | ⟨v, h⟩ <;> rw [step_of_head h]
  · exact (eventStep_read_inside (hostTurn_basePage s _) hw b).trans (if_neg hbad)
  · exact (eventStep_write_inside (hostTurn_basePage s _) hw b v).trans (if_neg hbad)

theorem step_of_supported_write {s : State} {a : Nat} {v : Word64} (hw : InWindow s.basePage a) (ha : a % 8 = 0)
    (h : s.script.head? = some (.write a 8 v)) :
    step s = writeStep (BitVec.ofNat 8 (a - 256 * s.basePage)) v (hostTurn s s.script.tail) := by
  rw [step_of_head h, eventStep_write_inside (hostTurn_basePage s _) hw, if_pos ⟨rfl, ha⟩]

theorem step_of_supported_read {s : State} {a : Nat} (hw : InWindow s.basePage a) (ha : a % 8 = 0)
    (h : s.script.head? = some (.read a 8)) :
    step s = .next (readStep (BitVec.ofNat 8 (a - 256 * s.basePage)) (hostTurn s s.script.tail)) := by
  rw [step_of_head h, eventStep_read_inside (hostTurn_basePage s _) hw, if_pos ⟨rfl, ha⟩]

theorem step_of_hazard_write {s : State} {a : Nat} {v : Word64} (hw : InWindow s.basePage a) (ha : a % 8 = 0)
    (h : s.script.head? = some (.write a 8 v)) (hz : HazardAtHost s) : step s = .fault .busyHazardWrite := by
  rw [step_of_supported_write hw ha h]
  exact writeStep_of_hazard _ _ _ ((inHazard_hostTurn_iff s _).2 hz)

/-- Outside the hazard every supported write has a next state. -/
theorem writeStep_next (off : BitVec 8) (v : Word64) (s : State) (h : inHazard s = false) :
    ∃ t, writeStep off v s = .next t := by
  unfold writeStep
  rw [h, if_neg Bool.false_ne_true]
  split
  · exact ⟨_, rfl⟩
  · obtain ⟨u, -, hu⟩ := writeCmd_cases v s
    exact ⟨_, hu⟩
  · exact ⟨_, rfl⟩

/-- What a step gives, with why. -/
inductive StepShape (s : State) : Host.Outcome State Fault Refusal → Prop where
  | unsupported (a b : Nat) (hw : InWindow s.basePage a) (hb : b ≠ 8 ∨ a % 8 ≠ 0) (h : NextAccess s a b) :
      StepShape s (.fault .unsupportedAccess)
  | hazard (a : Nat) (v : Word64) (hw : InWindow s.basePage a) (ha : a % 8 = 0)
      (h : s.script.head? = some (.write a 8 v)) (hz : HazardAtHost s) : StepShape s (.fault .busyHazardWrite)
  | outside (a b : Nat) (hw : ¬ InWindow s.basePage a) (h : NextAccess s a b) : StepShape s (.refused .outsideWindow)
  | next (t : State) : StepShape s (.next t)

/-- An access outside the window or unsupported stops the step, whatever it is. -/
theorem stepShape_of_access {s : State} {a b : Nat} (h : NextAccess s a b)
    (hok : InWindow s.basePage a → b = 8 ∧ a % 8 = 0 → StepShape s (step s)) : StepShape s (step s) := by
  by_cases hw : InWindow s.basePage a
  · by_cases hb : b = 8 ∧ a % 8 = 0
    · exact hok hw hb
    · rw [step_of_unsupported hw (not_and_or.1 hb) h]
      exact .unsupported a b hw (not_and_or.1 hb) h
  · rw [step_of_outside hw h]
    exact .outside a b hw h

theorem stepShape_of_read {s : State} {a b : Nat} (h : s.script.head? = some (.read a b)) : StepShape s (step s) := by
  refine stepShape_of_access (.inl h) fun hw ⟨hb, ha⟩ => ?_
  subst hb
  rw [step_of_supported_read hw ha h]
  exact .next _

theorem stepShape_of_write {s : State} {a b : Nat} {v : Word64} (h : s.script.head? = some (.write a b v)) :
    StepShape s (step s) := by
  refine stepShape_of_access (.inr ⟨v, h⟩) fun hw ⟨hb, ha⟩ => ?_
  subst hb
  by_cases hz : HazardAtHost s
  · rw [step_of_hazard_write hw ha h hz]
    exact .hazard a v hw ha h hz
  · have hfree := Bool.eq_false_iff.2 (mt (inHazard_hostTurn_iff s s.script.tail).1 hz)
    obtain ⟨t, ht⟩ := writeStep_next (BitVec.ofNat 8 (a - 256 * s.basePage)) v _ hfree
    rw [step_of_supported_write hw ha h, ht]
    exact .next t

theorem step_shape (s : State) : StepShape s (step s) := by
  cases h : s.script.head? with
  | none => rw [step_of_nil s (List.head?_eq_none_iff.1 h)]; exact .next _
  | some e =>
    cases e with
    | read a b => exact stepShape_of_read h
    | write a b v => exact stepShape_of_write h
    | wait => rw [step_of_head h]; exact .next _
    | idle => rw [step_of_head h]; exact .next _
    | reset => rw [step_of_head h]; exact .next _

/-- Settles O46: each stop by its access, and back by the shape of the step. -/
theorem stepStopsOnlyOnThreeHostAccesses : Obligations.StepStopsOnlyOnThreeHostAccesses := by
  intro s inside head
  have hshape := step_shape s
  refine ⟨⟨fun h => ?_, fun ⟨_, _, hw, hb, h⟩ => step_of_unsupported hw hb h⟩,
    ⟨fun h => ?_, fun ⟨_, _, hw, ha, h, hz⟩ => step_of_hazard_write hw ha h hz⟩,
    ⟨fun h => ?_, fun ⟨_, _, hw, h⟩ => step_of_outside hw h⟩, ?_⟩
  · rw [h] at hshape
    cases hshape with
    | unsupported a b hw hb h => exact ⟨a, b, hw, hb, h⟩
  · rw [h] at hshape
    cases hshape with
    | hazard a v hw ha h hz => exact ⟨a, v, hw, ha, h, hz⟩
  · rw [h] at hshape
    cases hshape with
    | outside a b hw h => exact ⟨a, b, hw, h⟩
  · generalize step s = o at hshape ⊢
    cases hshape with
    | unsupported => exact .inr (.inl rfl)
    | hazard => exact .inr (.inr (.inl rfl))
    | outside => exact .inr (.inr (.inr rfl))
    | next t => exact .inl ⟨t, rfl⟩

/-- Settles O45: BASE is a multiple of 8, so the offset and the address are aligned together. -/
theorem unsupportedAccessFaults : Obligations.UnsupportedAccessFaults := by
  intro s addr bytes v rest hlow hhigh hbad hs
  refine step_of_unsupported ⟨hlow, hhigh⟩ (hbad.imp_right fun h => by omega) ?_
  exact hs.imp (fun h => by rw [h]; rfl) fun h => ⟨v, by rw [h]; rfl⟩

/-! Reads (20_memory.md R50, R54, R56). -/

theorem eventStep_read_reg_at {s : State} {p : Nat} (hp : s.basePage = p) (r : Reg) :
    eventStep (.read (256 * p + (offsetOf r).toNat) 8) s = .next (readStep (offsetOf r) s) :=
  hp ▸ eventStep_read_reg s r

theorem definedInHazard_reg (r : Reg) : definedInHazard (offsetOf r) = true ↔ r = .status ∨ r = .id := by
  simp only [definedInHazard, Bool.or_eq_true, beq_iff_eq]
  exact or_congr ⟨offsetOf_injective, congrArg offsetOf⟩ ⟨offsetOf_injective, congrArg offsetOf⟩

/-- A read with BUSY = 0 that the hazard does not spoil: it returns the register and draws nothing. -/
theorem readStep_of_not_busy (off : BitVec 8) (s : State) (hb : busy s = false)
    (hd : inHazard s = false ∨ definedInHazard off = true) :
    readStep off s = { s with
      readLog := ⟨off, readOffset s off⟩ :: s.readLog
      unconfirmed := if off = offsetOf .status then false else s.unconfirmed
      early := s.early || (s.unconfirmed && !definedInHazard off) } := by
  have hdraw : (inHazard s && !definedInHazard off) = false := by rcases hd with h | h <;> simp [h]
  simp [readStep, readValue, hdraw, hb]

theorem readStep_reg_of_not_busy (r : Reg) (s : State) (hb : busy s = false)
    (hz : s.strictHazard = false ∨ s.unconfirmed = false ∨ r = .status ∨ r = .id) :
    readStep (offsetOf r) s = { s with
      readLog := ⟨offsetOf r, readReg s r⟩ :: s.readLog
      unconfirmed := if r = .status then false else s.unconfirmed
      early := s.early || (s.unconfirmed && decide (r ≠ .status ∧ r ≠ .id)) } := by
  have hd : inHazard s = false ∨ definedInHazard (offsetOf r) = true := by
    rw [← or_assoc] at hz
    exact hz.imp (not_inHazard s hb) (definedInHazard_reg r).2
  have hstatus : offsetOf r = offsetOf .status ↔ r = .status := ⟨offsetOf_injective, congrArg offsetOf⟩
  have hearly : (!definedInHazard (offsetOf r)) = decide (r ≠ .status ∧ r ≠ .id) := by
    rw [Bool.eq_iff_iff, Bool.not_eq_true', ← Bool.not_eq_true, definedInHazard_reg, decide_eq_true_iff, not_or]
  simp only [readStep_of_not_busy _ s hb hd, readOffset_reg, hstatus, hearly]

/-- Settles O41: the host's turn finds BUSY = 0 and the registers as they were. -/
theorem hostReadReturnsRegister : Obligations.HostReadReturnsRegister := by
  intro s r rest he hz hs
  have hb : busy { s with script := rest } = false := busy_of_engine_none he
  have hread : readReg { s with script := rest } r = readReg s r := readReg_congr rfl rfl r
  rw [step_eq_eventStep hs, eventStep_read_reg_at (hostTurn_basePage s rest), hostTurn_idle rest he,
    readStep_reg_of_not_busy r _ hb hz, hread]

/-- Settles O60: the host's turn finds BUSY = 0 and the results. -/
theorem resultsVisibleWhenBusyReturnsToZero : Obligations.ResultsVisibleWhenBusyReturnsToZero := by
  intro s p r rest he hp hz hs
  have hread := readStep_reg_of_not_busy r { s with regs := p.result, engine := none, script := rest } rfl hz
  have hstep := step_eq_eventStep hs
  rw [eventStep_read_reg_at (hostTurn_basePage s rest), hostTurn_last rest he hp, hread] at hstep
  exact ⟨_, hstep, rfl, rfl, rfl, congrArg (⟨offsetOf r, ·⟩ :: s.readLog) (readReg_congr rfl rfl r), rfl⟩

/-! Writes (20_memory.md R51, R52). -/

theorem word_setWord_same (w : Word256) (i : Fin 4) (v : Word64) : word (setWord w i v) i = v := by
  fin_cases i <;> rfl

theorem word_setWord_ne (w : Word256) {i j : Fin 4} (v : Word64) (h : j ≠ i) : word (setWord w i v) j = word w j := by
  fin_cases i <;> fin_cases j <;> simp [word, setWord] at h ⊢

theorem tweakWord_setTweakWord_same (t : Tweak128) (i : Fin 2) (v : Word64) :
    tweakWord (setTweakWord t i v) i = v := by fin_cases i <;> rfl

theorem tweakWord_setTweakWord_ne (t : Tweak128) {i j : Fin 2} (v : Word64) (h : j ≠ i) :
    tweakWord (setTweakWord t i v) j = tweakWord t j := by
  fin_cases i <;> fin_cases j <;> simp [tweakWord, setTweakWord] at h ⊢

/-- A read-write register reads as the value written. -/
theorem readReg_writeReg_same (s : State) (r : Reg) (v : Word64) (h : hostMayWrite r = true) :
    readReg (writtenState (writeReg s.regs v r) s) r = v := by
  cases r with
  | key i => exact word_setWord_same _ i v
  | twk i => exact tweakWord_setTweakWord_same _ i v
  | blk i => exact word_setWord_same _ i v
  | din => rfl
  | _ => cases h

/-- Every other register reads as before. -/
theorem readReg_writeReg_ne (s : State) {r r' : Reg} (v : Word64) (h : r' ≠ r) :
    readReg (writtenState (writeReg s.regs v r) s) r' = readReg s r' := by
  cases r with
  | key i =>
    cases r' with
    | key j => exact word_setWord_ne _ v fun hij => h (congrArg _ hij)
    | _ => rfl
  | twk i =>
    cases r' with
    | twk j => exact tweakWord_setTweakWord_ne _ v fun hij => h (congrArg _ hij)
    | _ => rfl
  | blk i =>
    cases r' with
    | blk j => exact word_setWord_ne _ v fun hij => h (congrArg _ hij)
    | _ => rfl
  | din =>
    cases r' with
    | din => exact absurd rfl h
    | _ => rfl
  | _ => exact readReg_congr rfl rfl r'

theorem writeReg_err (g : Regs) (v : Word64) (r : Reg) : (writeReg g v r).err = g.err := by cases r <;> rfl

theorem writeReg_read_only (g : Regs) (v : Word64) {r : Reg} (h : hostMayWrite r = false) : writeReg g v r = g := by
  cases r with
  | key | twk | blk | din => cases h
  | _ => rfl

/-- A write at an offset that no register has is ignored. -/
theorem writeStep_reserved (off : BitVec 8) (v : Word64) (s : State) (hz : inHazard s = false)
    (h : regAt off = none) : writeStep off v s = .next (writtenState s.regs s) := by
  simp only [writeStep, hz, Bool.false_eq_true, if_false, h]

/-- A write of a register other than CMD, by an idle engine outside the hazard. -/
theorem step_write_reg (s : State) (r : Reg) (v : Word64) (rest : List Event) (hr : r ≠ .cmd) (he : s.engine = none)
    (hz : s.strictHazard = false ∨ s.unconfirmed = false)
    (hs : s.script = .write (256 * s.basePage + (offsetOf r).toNat) 8 v :: rest) :
    step s = .next (writtenState (writeReg s.regs v r) { s with script := rest }) := by
  have hidle : busy { s with script := rest } = false := busy_of_engine_none he
  calc step s = eventStep (.write (256 * s.basePage + (offsetOf r).toNat) 8 v) { s with script := rest } :=
        step_of_idle s _ rest he hs
    _ = writeStep (offsetOf r) v { s with script := rest } := eventStep_write_reg { s with script := rest } r v
    _ = _ := writeStep_reg r v _ (not_inHazard _ hidle hz) hr

/-- Settles O43: the write is `writeReg`, which replaces one register. -/
theorem hostWriteReplacesOneRegister : Obligations.HostWriteReplacesOneRegister := by
  intro s r v rest hr he hz hs
  have hcmd : r ≠ .cmd := by rintro rfl; cases hr
  exact ⟨_, step_write_reg s r v rest hcmd he hz hs, readReg_writeReg_same _ r v hr,
    fun r' h => (readReg_writeReg_ne { s with script := rest } v h).trans (readReg_congr rfl rfl r'),
    rfl, writeReg_ctx _ _ _, writeReg_err _ _ _⟩

/-- The reserved offsets of the window (20_memory.md R48). -/
def ReservedOffset (off : Nat) : Prop := off = 0xE0 ∨ off = 0xE8 ∨ off = 0xF0 ∨ off = 0xF8

theorem ReservedOffset.regAt_none {off : Nat} (h : ReservedOffset off) : regAt (BitVec.ofNat 8 off) = none := by
  rcases h with rfl | rfl | rfl | rfl <;> rfl

theorem ReservedOffset.inWindow {off : Nat} (h : ReservedOffset off) (p : Nat) : InWindow p (256 * p + off) := by
  unfold ReservedOffset at h; unfold InWindow; omega

theorem ReservedOffset.aligned {off : Nat} (h : ReservedOffset off) (p : Nat) : (256 * p + off) % 8 = 0 := by
  unfold ReservedOffset at h; omega

theorem readOffset_reserved (s : State) {off : BitVec 8} (h : regAt off = none) : readOffset s off = 0 := by
  simp only [readOffset, h]

/-- STATUS and ID are no reserved offsets. -/
theorem definedInHazard_reserved {off : BitVec 8} (h : regAt off = none) : definedInHazard off = false := by
  rw [Bool.eq_false_iff]
  intro hd
  simp only [definedInHazard, Bool.or_eq_true, beq_iff_eq] at hd
  rcases hd with rfl | rfl <;> cases (regAt_offsetOf _).symm.trans h

theorem step_write_reserved (s : State) (off : Nat) (v : Word64) (rest : List Event) (ho : ReservedOffset off)
    (he : s.engine = none) (hz : s.strictHazard = false ∨ s.unconfirmed = false)
    (hs : s.script = .write (256 * s.basePage + off) 8 v :: rest) :
    step s = .next { s with script := rest, early := s.early || s.unconfirmed } := by
  have hidle : busy { s with script := rest } = false := busy_of_engine_none he
  rw [step_eq_eventStep hs, eventStep_write_inside (hostTurn_basePage s rest) (ho.inWindow _),
    if_pos ⟨rfl, ho.aligned _⟩, Nat.add_sub_cancel_left, hostTurn_idle rest he]
  exact writeStep_reserved _ v _ (not_inHazard _ hidle hz) ho.regAt_none

theorem step_read_reserved (s : State) (off : Nat) (rest : List Event) (ho : ReservedOffset off)
    (he : s.engine = none) (hz : s.strictHazard = false ∨ s.unconfirmed = false)
    (hs : s.script = .read (256 * s.basePage + off) 8 :: rest) :
    step s = .next { s with
      script := rest, readLog := ⟨BitVec.ofNat 8 off, 0⟩ :: s.readLog, early := s.early || s.unconfirmed } := by
  have hidle : busy { s with script := rest } = false := busy_of_engine_none he
  have hstatus : BitVec.ofNat 8 off ≠ offsetOf .status := fun h => by
    cases (regAt_offsetOf .status).symm.trans (h ▸ ho.regAt_none)
  rw [step_eq_eventStep hs, eventStep_read_inside (hostTurn_basePage s rest) (ho.inWindow _),
    if_pos ⟨rfl, ho.aligned _⟩, Nat.add_sub_cancel_left, hostTurn_idle rest he,
    readStep_of_not_busy _ _ hidle (.inl (not_inHazard _ hidle hz)), readOffset_reserved _ ho.regAt_none,
    definedInHazard_reserved ho.regAt_none, if_neg hstatus, Bool.not_false, Bool.and_true]

/-- Settles O44: a read-only register ignores a write, no register has a reserved offset, and CMD reads 0. -/
theorem readOnlyAndReservedAccesses : Obligations.ReadOnlyAndReservedAccesses := by
  intro s rest he hz
  refine ⟨fun r v hr hcmd hs => ?_, fun off v ho hs => step_write_reserved s off v rest ho he hz hs,
    fun off ho hs => ?_⟩
  · rw [step_write_reg s r v rest hcmd he hz hs, writeReg_read_only _ _ hr]
    rfl
  · rcases ho with rfl | ho
    · rw [hostReadReturnsRegister s .cmd rest he (hz.imp_right .inl) hs]
      simp [offsetOf, readReg]
    · exact step_read_reserved s off rest ho he hz hs

/-! What no step changes (20_memory.md R47, R50). -/

theorem eventShape_keeps_parameters {s t : State} (h : EventShape s t) :
    t.basePage = s.basePage ∧ t.strictHazard = s.strictHazard := by
  cases h with
  | wait => exact ⟨waitStep_basePage s, waitStep_strictHazard s⟩
  | _ => exact ⟨rfl, rfl⟩

/-- Only a read, of a program or of the WAIT loop, adds to the record. -/
theorem eventShape_readLog {s t : State} (h : EventShape s t) :
    t.readLog = s.readLog ∨ ∃ e, t.readLog = e :: s.readLog := by
  cases h with
  | read off => exact .inr ⟨_, rfl⟩
  | wait => exact .inr ⟨_, waitStep_readLog s⟩
  | _ => exact .inl rfl

/-- Settles O58: the engine's part of the cycle keeps all three, and the event at most adds one entry. -/
theorem stepKeepsBaseAndRecord : Obligations.StepKeepsBaseAndRecord := by
  intro s t hstep
  cases hscript : s.script with
  | nil =>
    rw [← next_injective ((step_of_nil s hscript).symm.trans hstep)]
    exact ⟨engineStep_basePage s, engineStep_strictHazard s, .inl (engineStep_readLog s)⟩
  | cons e rest =>
    have hevent := eventStep_shape ((step_of_cons s e rest hscript).symm.trans hstep)
    obtain ⟨hbase, hstrict⟩ := eventShape_keeps_parameters hevent
    refine ⟨hbase.trans (engineStep_basePage s), hstrict.trans (engineStep_strictHazard s), ?_⟩
    simpa using eventShape_readLog hevent

/-! The cycles of a command (20_memory.md R56; 70_reset_and_hazards.md R126, R130). -/

/-- One more step at the end of a run. -/
theorem run_succ_of_next (M : Host.Core) (k : Nat) {s t : M.State} (h : M.run k s = .next t) :
    M.run (k + 1) s = M.step t := by
  induction k generalizing s with
  | zero =>
    obtain rfl : s = t := by cases h; rfl
    unfold Host.Core.run
    cases M.step s <;> rfl
  | succ k ih =>
    unfold Host.Core.run at h ⊢
    cases hs : M.step s with
    | next u => rw [hs] at h; exact ih h
    | fault r => rw [hs] at h; cases h
    | refused r => rw [hs] at h; cases h

theorem step_of_running (s : State) (p : InFlight) (he : s.engine = some p) (hs : s.script = [])
    (hp : 1 < p.cyclesLeft) : step s = .next { s with engine := some { p with cyclesLeft := p.cyclesLeft - 1 } } := by
  rw [step_of_nil s hs, engineStep_running s p he hp]

theorem step_of_last (s : State) (p : InFlight) (he : s.engine = some p) (hs : s.script = [])
    (hp : p.cyclesLeft ≤ 1) : step s = .next { s with regs := p.result, engine := none } := by
  rw [step_of_nil s hs, engineStep_last s p he hp]

/-- With no host access a command in flight only counts its cycles down. -/
theorem run_of_running (s : State) (p : InFlight) (he : s.engine = some p) (hs : s.script = []) (k : Nat)
    (hk : k < p.cyclesLeft) :
    Sys2Proof.core.run k s = .next { s with engine := some { p with cyclesLeft := p.cyclesLeft - k } } := by
  induction k with
  | zero => rw [Nat.sub_zero, ← he]; rfl
  | succ k ih =>
    rw [run_succ_of_next _ k (ih (by omega))]
    exact step_of_running { s with engine := some { p with cyclesLeft := p.cyclesLeft - k } } _ rfl hs
      (show 1 < p.cyclesLeft - k by omega)

/-- Settles O49: the command counts down to its last cycle, whose step puts the results. -/
theorem commandCompletesAfterItsLatency : Obligations.CommandCompletesAfterItsLatency := by
  intro s p he hs hp
  refine ⟨fun k hk => ⟨_, run_of_running s p he hs k hk, rfl, statusWord_busy true _⟩, ?_⟩
  obtain ⟨n, hn⟩ := Nat.exists_eq_add_of_le' hp
  rw [hn, run_succ_of_next _ n (run_of_running s p he hs n (by omega))]
  exact step_of_last { s with engine := some { p with cyclesLeft := p.cyclesLeft - n } }
    { p with cyclesLeft := p.cyclesLeft - n } rfl hs (show p.cyclesLeft - n ≤ 1 by omega)

end Sys2Proof.Machine
end

section
/-! PROOFS of 30_encoding.md: the command word, decoded and encoded (O1 to O4), the WAIT loop (O52) and the expansion
of UPDATE (O59). -/

namespace Sys2Proof

open Sys2Proof.Machine

/-! The fields of a word, read off its number (30_encoding.md R61). -/

theorem opField_toNat (w : Word64) : (opField w).toNat = w.toNat % 2 ^ 8 := by
  rw [opField, BitVec.extractLsb'_toNat, Nat.shiftRight_zero]

theorem lenField_toNat (w : Word64) : (lenField w).toNat = w.toNat / 2 ^ 8 % 2 ^ 6 := by
  rw [lenField, BitVec.extractLsb'_toNat, Nat.shiftRight_eq_div_pow]

theorem finField_toNat (w : Word64) : (finField w).toNat = w.toNat / 2 ^ 16 % 2 := by
  rw [finField, BitVec.getLsbD, Nat.toNat_testBit]

theorem rsvField_eq_zero_iff (w : Word64) :
    rsvField w = 0#49 ↔ w.toNat / 2 ^ 14 % 2 ^ 2 = 0 ∧ w.toNat / 2 ^ 17 = 0 := by
  have hw := w.isLt
  rw [BitVec.toNat_eq, rsvField, append_toNat]
  simp only [BitVec.extractLsb'_toNat, Nat.shiftRight_eq_div_pow, BitVec.toNat_ofNat]
  omega

theorem commandWord_toNat (op : BitVec 8) (len : Nat) (fin : Bool) :
    (commandWord op len fin).toNat = op.toNat + 2 ^ 8 * (len % 2 ^ 6) + 2 ^ 16 * fin.toNat := by
  simp only [commandWord, append_toNat, BitVec.toNat_ofBool, BitVec.toNat_ofNat]
  omega

/-! The fields of a command word, and the word its fields make (30_encoding.md R61). -/

@[simp] theorem opField_commandWord (op : BitVec 8) (len : Nat) (fin : Bool) :
    opField (commandWord op len fin) = op := by
  apply BitVec.eq_of_toNat_eq
  rw [opField_toNat, commandWord_toNat]
  omega

theorem lenField_commandWord (op : BitVec 8) {len : Nat} (fin : Bool) (h : len < 2 ^ 6) :
    (lenField (commandWord op len fin)).toNat = len := by
  rw [lenField_toNat, commandWord_toNat]
  omega

@[simp] theorem finField_commandWord (op : BitVec 8) (len : Nat) (fin : Bool) :
    finField (commandWord op len fin) = fin := by
  have hbit : (finField (commandWord op len fin)).toNat = fin.toNat := by
    rw [finField_toNat, commandWord_toNat]
    have := fin.toNat_lt
    omega
  rw [← Bool.ofNat_toNat (finField _), hbit, Bool.ofNat_toNat]

@[simp] theorem rsvField_commandWord (op : BitVec 8) (len : Nat) (fin : Bool) :
    rsvField (commandWord op len fin) = 0#49 := by
  rw [rsvField_eq_zero_iff, commandWord_toNat]
  have := fin.toNat_lt
  omega

/-- A word without reserved bits is the command word of its three fields. -/
theorem commandWord_of_fields {w : Word64} (h : rsvField w = 0#49) :
    commandWord (opField w) (lenField w).toNat (finField w) = w := by
  obtain ⟨hmid, hhigh⟩ := (rsvField_eq_zero_iff w).1 h
  apply BitVec.eq_of_toNat_eq
  rw [commandWord_toNat, opField_toNat, lenField_toNat, finField_toNat]
  omega

/-! The decoder, by the fields of the instruction it gives (30_encoding.md R62 to R64). -/

/-- LEN of an instruction's word (R63). -/
def Instr.lenBits : Instr → Nat
  | .ubiBlock len _ => len
  | .ctxUpdate len => len
  | .tfEnc | .ctxInit | .ctxInitCfg | .ctxFinal => 0

/-- FIN of an instruction's word (R63). -/
def Instr.finBit : Instr → Bool
  | .ubiBlock _ fin => fin
  | .tfEnc | .ctxInit | .ctxInitCfg | .ctxUpdate _ | .ctxFinal => false

theorem encode_eq_commandWord (i : Instr) : encode i = commandWord i.opcode i.lenBits i.finBit := by cases i <;> rfl

theorem Instr.lenBits_lt {i : Instr} (h : i.wf = true) : i.lenBits < 2 ^ 6 := by
  cases i with
  | ubiBlock len fin => exact Nat.lt_of_le_of_lt (of_decide_eq_true h) (by decide)
  | ctxUpdate len => exact Nat.lt_of_le_of_lt (of_decide_eq_true h) (by decide)
  | _ => exact Nat.two_pow_pos 6

/-- The fields of `w` are the instruction's, which is well-formed. -/
structure FieldsOf (i : Instr) (w : Word64) : Prop where
  rsv : rsvField w = 0#49
  op : opField w = i.opcode
  len : (lenField w).toNat = i.lenBits
  fin : finField w = i.finBit
  wf : i.wf = true

theorem fieldsOf_encode {i : Instr} (h : i.wf = true) : FieldsOf i (encode i) := by
  rw [encode_eq_commandWord]
  exact ⟨rsvField_commandWord .., opField_commandWord .., lenField_commandWord _ _ (Instr.lenBits_lt h),
    finField_commandWord .., h⟩

theorem FieldsOf.encode_eq {i : Instr} {w : Word64} (h : FieldsOf i w) : encode i = w := by
  rw [encode_eq_commandWord, ← h.op, ← h.len, ← h.fin, commandWord_of_fields h.rsv]

theorem decodeNoFin_eq_ok {m : Nat} {w : Word64} (i : Instr) (hlen : (lenField w).toNat ≤ m)
    (hfin : finField w = false) : decodeNoFin m i w = .ok i := by
  rw [decodeNoFin, if_neg (Nat.not_lt.2 hlen), if_neg (by simp [hfin])]

theorem decodeNoFin_eq_ok_iff {m : Nat} {w : Word64} {i j : Instr} :
    decodeNoFin m i w = .ok j ↔ (lenField w).toNat ≤ m ∧ finField w = false ∧ i = j := by
  constructor
  · intro h
    obtain ⟨hlen, hfin⟩ := decodeNoFin_ok h
    exact ⟨hlen, hfin, Except.ok.inj ((decodeNoFin_eq_ok i hlen hfin).symm.trans h)⟩
  · rintro ⟨hlen, hfin, rfl⟩
    exact decodeNoFin_eq_ok i hlen hfin

theorem fieldsOf_of_decode {w : Word64} {i : Instr} (h : decode w = .ok i) : FieldsOf i w := by
  unfold decode at h
  split_ifs at h with hrsv h01 h02 hlen h10 h11 h12 h13
  · obtain ⟨hl, hf, rfl⟩ := decodeNoFin_eq_ok_iff.1 h
    exact ⟨not_not.1 hrsv, h01, Nat.le_zero.1 hl, hf, rfl⟩
  · cases h
    exact ⟨not_not.1 hrsv, h02, rfl, rfl, decide_eq_true (Nat.not_lt.1 hlen)⟩
  · obtain ⟨hl, hf, rfl⟩ := decodeNoFin_eq_ok_iff.1 h
    exact ⟨not_not.1 hrsv, h10, Nat.le_zero.1 hl, hf, rfl⟩
  · obtain ⟨hl, hf, rfl⟩ := decodeNoFin_eq_ok_iff.1 h
    exact ⟨not_not.1 hrsv, h11, Nat.le_zero.1 hl, hf, rfl⟩
  · obtain ⟨hl, hf, rfl⟩ := decodeNoFin_eq_ok_iff.1 h
    exact ⟨not_not.1 hrsv, h12, rfl, hf, decide_eq_true hl⟩
  · obtain ⟨hl, hf, rfl⟩ := decodeNoFin_eq_ok_iff.1 h
    exact ⟨not_not.1 hrsv, h13, Nat.le_zero.1 hl, hf, rfl⟩

theorem FieldsOf.decode_eq {i : Instr} {w : Word64} (h : FieldsOf i w) : decode w = .ok i := by
  obtain ⟨hrsv, hop, hlen, hfin, hwf⟩ := h
  cases i with
  | ubiBlock len fin =>
    have hle : len ≤ 32 := of_decide_eq_true hwf
    have hnot : ¬ 32 < (lenField w).toNat := hlen ▸ Nat.not_lt.2 hle
    simpa [decode, hrsv, hop, Instr.opcode, hnot] using ⟨hlen, hfin⟩
  | ctxUpdate len =>
    have hle : len ≤ 8 := of_decide_eq_true hwf
    simpa [decode, hrsv, hop, Instr.opcode, decodeNoFin_eq_ok_iff] using ⟨hlen ▸ hle, hfin, hlen⟩
  | _ => simpa [decode, hrsv, hop, Instr.opcode, decodeNoFin_eq_ok_iff] using ⟨hlen, hfin⟩

/-- Settles O1: the encoding holds the instruction's fields, and they decide what the decoder gives. -/
theorem decodeOfEncodeIsIdentity : Obligations.DecodeOfEncodeIsIdentity := fun _ h => (fieldsOf_encode h).decode_eq

/-- Settles O2: the word that decodes holds the instruction's fields and no other bit. -/
theorem encodeOfDecodeIsIdentity : Obligations.EncodeOfDecodeIsIdentity := fun _ _ h =>
  ⟨(fieldsOf_of_decode h).wf, (fieldsOf_of_decode h).encode_eq⟩

/-- Settles O4: each word is a closed term the decoder evaluates. -/
theorem sampleCommandWordsDecode : Obligations.SampleCommandWordsDecode := by
  unfold Obligations.SampleCommandWordsDecode
  decide

/-! The legal words (30_encoding.md R64). -/

/-- A legal word has the fields of some instruction. -/
theorem decode_of_legal {w : Word64} (h : legal w = true) : ∃ i, decode w = .ok i := by
  simp only [legal, Bool.and_eq_true, Bool.or_eq_true, beq_iff_eq, Bool.not_eq_true', decide_eq_true_eq] at h
  obtain ⟨hrsv, (⟨⟨hop, hlen⟩, hfin⟩ | ⟨hop, hlen⟩) | ⟨⟨hop, hlen⟩, hfin⟩⟩ := h
  · have hlen := congrArg BitVec.toNat hlen
    obtain ((hop | hop) | hop) | hop := hop
    · exact ⟨.tfEnc, FieldsOf.decode_eq ⟨hrsv, hop, hlen, hfin, rfl⟩⟩
    · exact ⟨.ctxInit, FieldsOf.decode_eq ⟨hrsv, hop, hlen, hfin, rfl⟩⟩
    · exact ⟨.ctxInitCfg, FieldsOf.decode_eq ⟨hrsv, hop, hlen, hfin, rfl⟩⟩
    · exact ⟨.ctxFinal, FieldsOf.decode_eq ⟨hrsv, hop, hlen, hfin, rfl⟩⟩
  · exact ⟨.ubiBlock _ _, FieldsOf.decode_eq ⟨hrsv, hop, rfl, rfl, decide_eq_true hlen⟩⟩
  · exact ⟨.ctxUpdate _, FieldsOf.decode_eq ⟨hrsv, hop, rfl, hfin, decide_eq_true hlen⟩⟩

theorem opField_eq_iff (w : Word64) (op : BitVec 8) : opField w = op ↔ w.toNat % 2 ^ 8 = op.toNat := by
  rw [BitVec.toNat_eq, opField_toNat]

theorem lenField_eq_zero_iff (w : Word64) : lenField w = 0#6 ↔ w.toNat / 2 ^ 8 % 2 ^ 6 = 0 := by
  rw [BitVec.toNat_eq, lenField_toNat, BitVec.toNat_ofNat]

theorem finField_eq_false_iff (w : Word64) : finField w = false ↔ w.toNat / 2 ^ 16 % 2 = 0 := by
  rw [← finField_toNat, Bool.toNat_eq_zero]

/-- Settles O3: `decode` accepts what `legal` does, and `legal` reads its fields at R61's places. -/
theorem decodeAcceptsExactlyLegalWords : Obligations.DecodeAcceptsExactlyLegalWords := by
  intro w op len fin
  have hlegal : (∃ i, decode w = .ok i) ↔ legal w = true := ⟨fun ⟨_, h⟩ => legal_of_decode h, decode_of_legal⟩
  rw [hlegal]
  simp only [legal, Bool.and_eq_true, Bool.or_eq_true, beq_iff_eq, Bool.not_eq_true', decide_eq_true_eq,
    rsvField_eq_zero_iff, opField_eq_iff, lenField_eq_zero_iff, lenField_toNat, finField_eq_false_iff,
    and_assoc, or_assoc]
  exact Iff.rfl

end Sys2Proof

namespace Sys2Proof.Machine

open Sys2Proof

/-! The WAIT loop (30_encoding.md R67; 70_reset_and_hazards.md R124). -/

theorem step_wait {s : State} {rest : List Event} (h : s.script = .wait :: rest) :
    step s = .next (waitStep (hostTurn s rest)) := step_eq_eventStep h

theorem waitStep_of_busy {s : State} (h : busy s = true) :
    waitStep s = { readStep (offsetOf .status) s with script := .wait :: s.script } := if_pos h

/-- The read that ends the loop. -/
theorem waitStep_of_not_busy {s : State} (h : busy s = false) :
    waitStep s = { s with
      readLog := ⟨0x08#8, statusWord false s.regs⟩ :: s.readLog
      unconfirmed := false } := by
  have hread := readStep_reg_of_not_busy .status s h (.inr (.inr (.inl rfl)))
  have hwait : waitStep s = readStep (offsetOf .status) s := if_neg (by simp [h])
  simpa [hwait, readReg, h, offsetOf] using hread

/-- Settles O52: the host's turn finds BUSY as the engine's part of the cycle has left it. -/
theorem waitLoopsOnBusy : Obligations.WaitLoopsOnBusy := by
  intro s rest hs
  have hstep := step_wait hs
  refine ⟨fun p he hp => ?_, fun p he hp => ?_, fun he => ?_, statusWord_busy⟩
  · rw [hostTurn, engineStep_running s p he hp, waitStep_of_busy rfl] at hstep
    refine ⟨_, hstep, rfl, rfl, ?_, rfl⟩
    exact congrArg (⟨0x08#8, ·⟩ :: s.readLog) (readValue_status _)
  · rw [hostTurn_last rest he hp, waitStep_of_not_busy rfl] at hstep
    exact ⟨_, hstep, rfl, rfl, rfl, rfl, rfl⟩
  · have hidle : busy { s with script := rest } = false := busy_of_engine_none he
    rw [hostTurn_idle rest he, waitStep_of_not_busy hidle] at hstep
    exact ⟨_, hstep, rfl, rfl, he, rfl, rfl⟩

/-! The expansion of UPDATE (30_encoding.md R69). -/

section Blocks

variable {α : Type} (f : Nat → List α) {k : Nat} (hf : ∀ i, (f i).length = k)

include hf

theorem length_flatten_range (n : Nat) : ((List.range n).map f).flatten.length = k * n := by
  simp [List.length_flatten, Function.comp_def, hf, Nat.mul_comm]

/-- Entry `j` of the `i`-th of equally long blocks. -/
theorem getD_flatten_range {n i j : Nat} (hi : i < n) (hj : j < k) (d : α) :
    ((List.range n).map f).flatten.getD (k * i + j) d = (f i).getD j d := by
  induction n with
  | zero => cases hi
  | succ n ih =>
    have hlen := length_flatten_range f hf n
    rw [List.range_succ, List.map_append, List.flatten_append, List.map_singleton, List.flatten_singleton]
    obtain hlt | rfl := Nat.lt_succ_iff_lt_or_eq.1 hi
    · have hle : k * i + k ≤ k * n := Nat.mul_le_mul_left k hlt
      rw [List.getD_append _ _ _ _ (by omega), ih hlt]
    · rw [List.getD_append_right _ _ _ _ (by omega), hlen, Nat.add_sub_cancel_left]

end Blocks

theorem updateProgram_length (m : List Byte) : (updateProgram m).length = 3 * ((m.length + 7) / 8) :=
  length_flatten_range (updateChunk m) (fun _ => rfl) _

/-- Statement `j` of the triple of chunk `i`. -/
theorem updateProgram_getD (m : List Byte) {i j : Nat} (hi : i < (m.length + 7) / 8) (hj : j < 3) (d : Stmt) :
    (updateProgram m).getD (3 * i + j) d = (updateChunk m i).getD j d :=
  getD_flatten_range (updateChunk m) (fun _ => rfl) hi hj d

/-- Chunk `i` of up to 8 bytes of `m` (R69). -/
def chunkBytes (m : List Byte) (i : Nat) : List Byte := (m.drop (8 * i)).take 8

theorem chunkBytes_length (m : List Byte) (i : Nat) : (chunkBytes m i).length = min 8 (m.length - 8 * i) := by
  simp [chunkBytes]

/-- The first `n` chunks are the first `8 n` bytes. -/
theorem flatten_chunkBytes (m : List Byte) (n : Nat) : ((List.range n).map (chunkBytes m)).flatten = m.take (8 * n) := by
  induction n with
  | zero => rfl
  | succ n ih =>
    rw [List.range_succ, List.map_append, List.flatten_append, ih, Nat.mul_succ, List.take_add]
    simp [chunkBytes]

theorem flatten_chunkBytes_all (m : List Byte) :
    ((List.range ((m.length + 7) / 8)).map (chunkBytes m)).flatten = m := by
  rw [flatten_chunkBytes, List.take_of_length_le (by omega)]

/-- Up to 8 bytes come back from the lanes they were put in. -/
theorem dinBytes_le64 (c : List Byte) (h : c.length ≤ 8) : dinBytes (le64 c 0) c.length = c := by
  apply List.ext_getElem (dinBytes_length _ _)
  intro j _ hj
  rw [← List.getD_eq_getElem _ 0, dinBytes_getD _ _ _ hj, byteLane_le64 _ _ _ (by omega), Nat.zero_add,
    List.getD_eq_getElem _ _ hj]

/-- The lanes past the last byte are zero. -/
theorem byteLane_le64_of_length_le (c : List Byte) {j : Nat} (hc : c.length ≤ j) (hj : j < 8) :
    byteLane (le64 c 0) j = 0 := by
  rw [byteLane_le64 _ _ _ hj, Nat.zero_add, List.getD_eq_default _ _ hc]

/-- Settles O59: the triples by their places, the chunks by the bytes they take. -/
theorem updateExpandsToChunks : Obligations.UpdateExpandsToChunks := by
  refine ⟨rfl, fun m => ?_⟩
  intro n chunk
  have hchunks : ((List.range n).map chunk).flatten = m := flatten_chunkBytes_all m
  refine ⟨rfl, fun i hi d => ⟨updateProgram_getD m hi (j := 0) (by decide) d,
    updateProgram_getD m hi (j := 1) (by decide) d, updateProgram_getD m hi (j := 2) (by decide) d⟩,
    updateProgram_length m, hchunks, ?_, fun i hi => ?_⟩
  · have hsum := congrArg List.length hchunks
    rwa [List.length_flatten, List.map_map] at hsum
  · have hlen : (chunk i).length = min 8 (m.length - 8 * i) := chunkBytes_length m i
    have hi : i < (m.length + 7) / 8 := hi
    have hle : (chunk i).length ≤ 8 := by omega
    exact ⟨by omega, hle, dinBytes_le64 _ hle, fun j => byteLane_le64_of_length_le _⟩

end Sys2Proof.Machine
end

section
/-! PROOFS of 40_threefish.md: the rounds of Threefish-256 in full (O14), TF_ENC (O12), and TF_ENC and CTX_INIT issued
twice (O40). -/

namespace Sys2Proof.Machine

open Sys2Proof

/-! The key schedule at reduced indices (40_threefish.md R74 to R76). -/

theorem tweakScheduleWord_mod (t : Tweak128) (i : Nat) : tweakScheduleWord t (i % 3) = tweakScheduleWord t i := by
  simp only [tweakScheduleWord, Nat.mod_mod]

theorem keyScheduleWord_mod (k : Word256) (i : Nat) : keyScheduleWord k (i % 5) = keyScheduleWord k i := by
  simp only [keyScheduleWord, Nat.mod_mod]

/-- The subkey reads the tweak words modulo 3 and the extended key modulo 5 (R76). -/
theorem subkey_eq_mod (k : Word256) (t : Tweak128) (s : Nat) :
    subkey k t s =
      ⟨keyScheduleWord k (s % 5),
        keyScheduleWord k ((s + 1) % 5) + tweakScheduleWord t (s % 3),
        keyScheduleWord k ((s + 2) % 5) + tweakScheduleWord t ((s + 1) % 3),
        keyScheduleWord k ((s + 3) % 5) + BitVec.ofNat 64 s⟩ := by
  simp only [keyScheduleWord_mod, tweakScheduleWord_mod, subkey]

/-- The two MIXes and the swap of words 1 and 3, in the library's rotation (R78, R79). -/
theorem mixPermute_eq_rotateLeft (a : Word256) (r : Nat) :
    mixPermute a r =
      ⟨a.w0 + a.w1, a.w3.rotateLeft (rot1.getD (r % 8) 0) ^^^ (a.w2 + a.w3),
        a.w2 + a.w3, a.w1.rotateLeft (rot0.getD (r % 8) 0) ^^^ (a.w0 + a.w1)⟩ := by
  obtain ⟨h0, h1⟩ := rotationTables_le r
  rw [← rotl64_eq_rotateLeft _ _ h0, ← rotl64_eq_rotateLeft _ _ h1]
  rfl

/-- Settles O14: the extended key, tweak words and subkeys are those of the key schedule, and `e n` is the working
state after `n` rounds. -/
theorem threefishUnfoldsToRounds : Obligations.ThreefishUnfoldsToRounds := by
  intro k t p
  refine ⟨keyScheduleWord k, tweakScheduleWord t, subkey k t, fun n => tfRounds k t n p,
    ⟨rfl, rfl, rfl, rfl, rfl⟩, ⟨rfl, rfl, rfl⟩, fun s _ => subkey_eq_mod k t s, rfl, fun r _ => ?_, rfl⟩
  exact (tfRounds_succ k t r p).trans (mixPermute_eq_rotateLeft (injectBefore k t (tfRounds k t r p) r) r)

/-- Settles O12: the equation of the command, with `finish` written out. -/
theorem tfEncCompletes : Obligations.TfEncCompletes := exec_tfEnc

/-! Commands that leave their own operands alone, issued twice (40_threefish.md R82; 42_skein_context.md R100). -/

theorem exec_tfEnc_again {s t : State} (h : exec .tfEnc s = .next t) : exec .tfEnc t = .next t := by
  obtain rfl := next_injective ((exec_tfEnc s).symm.trans h)
  exact exec_tfEnc _

theorem exec_ctxInit_again {s t : State} (h : exec .ctxInit s = .next t) : exec .ctxInit t = .next t := by
  obtain rfl := next_injective ((exec_ctxInit s).symm.trans h)
  exact exec_ctxInit _

/-- Settles O40: TF_ENC finds the operands it found, and CTX_INIT reads none. -/
theorem repeatedTfEncAndCtxInitChangeNothing : Obligations.RepeatedTfEncAndCtxInitChangeNothing := fun _ _ =>
  ⟨exec_tfEnc_again, exec_ctxInit_again⟩

end Sys2Proof.Machine
end

section
/-! PROOFS of 41_ubi.md: the tweak of one block (O15), UBI_BLOCK (O16, O17), the blocks of a message (O18) and the tweaks
of a UBI pass (O19 to O21). -/

namespace Sys2Proof.Machine

open Sys2Proof

/-! One block (41_ubi.md R83, R84). -/

/-- Settles O15: the fields of the returned tweak, one by one. -/
theorem ubiBlockTweakFields : Obligations.UbiBlockTweakFields := fun g t b n f _ =>
  ⟨getPos_ubiBlock g t b n f, getFinal_ubiBlock g t b n f, getFirst_ubiBlock g t b n f, getType_ubiBlock g t b n f,
    getReserved_ubiBlock g t b n f⟩

@[simp] theorem getPos_blockTweak (t : Tweak128) (n : Nat) (f : Bool) :
    getPos (blockTweak t n f) = getPos t + BitVec.ofNat 96 n := by
  cases f <;> simp [blockTweak]

@[simp] theorem getType_blockTweak (t : Tweak128) (n : Nat) (f : Bool) : getType (blockTweak t n f) = getType t := by
  cases f <;> simp [blockTweak, advancePos]

@[simp] theorem getReserved_blockTweak (t : Tweak128) (n : Nat) (f : Bool) :
    getReserved (blockTweak t n f) = getReserved t := by
  cases f <;> simp [blockTweak, advancePos]

@[simp] theorem getFinal_blockTweak (t : Tweak128) (n : Nat) (f : Bool) :
    getFinal (blockTweak t n f) = (f || getFinal t) := by
  cases f <;> simp [blockTweak, advancePos]

@[simp] theorem getFirst_blockTweak (t : Tweak128) (n : Nat) (f : Bool) : getFirst (blockTweak t n f) = getFirst t := by
  cases f <;> simp [blockTweak, advancePos]

/-- A block is its first `n` bytes, zero padded. -/
theorem ubiBlock_congr (g : Word256) (t : Tweak128) {b b' : Bytes32} {n : Nat} (f : Bool) (hn : n ≤ 32)
    (h : ∀ j : Fin 32, j.val < n → b[j] = b'[j]) : ubiBlock g t b n f = ubiBlock g t b' n f := by
  have hpad : pad32 b.toList n = pad32 b'.toList n := pad32_congr n _ _ fun j hj => by
    have hj32 : j < 32 := by omega
    simpa [hj32] using h ⟨j, hj32⟩ hj
  simp only [ubiBlock, hpad]

/-- Byte `j` of the block UBI_BLOCK encrypts. -/
theorem w2b_b2w_pad32_get (b : Bytes32) (n : Nat) (j : Fin 32) :
    (w2b (b2w (pad32 b.toList n)))[j] = if j.val < n then b[j] else 0 := by
  rw [w2b_b2w]
  simpa using pad32_get b.toList n j.val j.isLt

/-- Settles O16: the block, the tweak and the chaining value are those of `ubiBlock` on KEY, TWK and BLK. -/
theorem ubiBlockCompletes : Obligations.UbiBlockCompletes := fun s n f hn =>
  ⟨b2w (pad32 (blkBytes s.regs).toList n), blockTweak s.regs.twk n f, _, w2b_b2w_pad32_get (blkBytes s.regs) n,
    getPos_blockTweak _ n f, getFinal_blockTweak _ n f, getFirst_blockTweak _ n f, getType_blockTweak _ n f,
    getReserved_blockTweak _ n f, rfl, exec_ubiBlock n f s hn⟩

/-- Settles O17: both runs complete, with one and the same result of `ubiBlock`. -/
theorem ubiBlockIgnoresBytesPastLen : Obligations.UbiBlockIgnoresBytesPastLen := by
  intro s blk' n f hn hbytes
  refine ⟨_, _, exec_ubiBlock n f s hn, exec_ubiBlock n f _ hn, ?_⟩
  have hblock : ubiBlock s.regs.key s.regs.twk (w2b blk') n f = ubiBlock s.regs.key s.regs.twk (w2b s.regs.blk) n f :=
    (ubiBlock_congr _ _ f hn hbytes).symm
  simp only [finish, blkBytes, hblock]

/-! The blocks of a message (41_ubi.md R85). -/

theorem blockCount_pos (len : Nat) : 1 ≤ blockCount len := Nat.le_max_left _ _

/-- Every block but the last is full. -/
theorem blockLen_of_not_last {len j : Nat} (h : j + 1 < blockCount len) : blockLen len j = 32 := if_pos h

theorem blockLen_last (len : Nat) : blockLen len (blockCount len - 1) = len - 32 * (blockCount len - 1) :=
  if_neg (by omega)

/-- The full blocks fit in the message, and one more block covers the rest of it. -/
theorem blockCount_bounds (len : Nat) : 32 * (blockCount len - 1) ≤ len ∧ len ≤ 32 * blockCount len := by
  unfold blockCount
  omega

/-- Only the empty message has an empty last block. -/
theorem last_block_start_lt {len : Nat} (h : len ≠ 0) : 32 * (blockCount len - 1) < len := by
  unfold blockCount
  omega

/-- A block takes 32 bytes, or what is left of the message. -/
theorem blockLen_eq_min {len j : Nat} (h : j < blockCount len) : blockLen len j = min 32 (len - 32 * j) := by
  obtain ⟨hlo, hhi⟩ := blockCount_bounds len
  obtain hj | rfl : j + 1 < blockCount len ∨ j = blockCount len - 1 := by omega
  · rw [blockLen_of_not_last hj]
    omega
  · rw [blockLen_last, min_eq_right (by omega)]

theorem blockBytes_length {m : List Byte} {j : Nat} (h : j < blockCount m.length) :
    (blockBytes m j).length = blockLen m.length j := by
  simp [blockBytes, blockLen_eq_min h]

theorem blockBytes_eq_take {m : List Byte} {j : Nat} (h : j < blockCount m.length) :
    blockBytes m j = (m.drop (32 * j)).take 32 := by
  rw [blockBytes, blockLen_eq_min h, ← List.length_drop, ← List.take_eq_take_min]

/-- The first `k` blocks are the first `32 k` bytes. -/
theorem flatten_blockBytes (m : List Byte) {k : Nat} (h : k ≤ blockCount m.length) :
    ((List.range k).map (blockBytes m)).flatten = m.take (32 * k) := by
  induction k with
  | zero => rfl
  | succ k ih =>
    rw [List.range_succ, List.map_append, List.flatten_append, ih (by omega), Nat.mul_succ, List.take_add]
    simp [blockBytes_eq_take h]

/-- Settles O18: the number of blocks by its bounds, the blocks by their lengths and their concatenation. -/
theorem messageSplitsIntoItsBlocks : Obligations.MessageSplitsIntoItsBlocks := by
  intro m
  obtain ⟨hlo, hhi⟩ := blockCount_bounds m.length
  refine ⟨blockCount_pos _, hlo, hhi, fun hm => last_block_start_lt (mt List.eq_nil_of_length_eq_zero hm),
    fun _ => blockBytes_length, fun _ => blockLen_of_not_last, blockLen_last _, ?_⟩
  rw [flatten_blockBytes m le_rfl, List.take_of_length_le hhi]

/-! A UBI pass (41_ubi.md R86, R87). -/

/-- A block that is not the last is an ordinary full block, the one a context flushes (42_skein_context.md R99). -/
theorem passStep_eq_flushBlock (m : List Byte) (gt : Word256 × Tweak128) {j : Nat} (h : j + 1 < blockCount m.length) :
    passStep m gt j = flushBlock m gt j := by
  have hpad : pad32 (blockBytes m j) 32 = pad32 (m.drop (32 * j)) 32 := pad32_congr _ _ _ fun i hi => by
    simp [blockBytes, blockLen_of_not_last h, List.getD_eq_getElem?_getD, hi]
  have hlast : (j + 1 == blockCount m.length) = false := beq_false_of_ne h.ne
  rw [passStep, flushBlock, blockLen_of_not_last h, hpad, hlast]

theorem passSteps_eq_flushBlocks (m : List Byte) (gt : Word256 × Tweak128) {k : Nat} (h : k < blockCount m.length) :
    (List.range k).foldl (passStep m) gt = (List.range k).foldl (flushBlock m) gt :=
  List.foldl_ext _ _ _ fun _ j hj => passStep_eq_flushBlock m _ (by have := List.mem_range.1 hj; omega)

/-- The tweak before block `k` of a pass. -/
theorem passSteps_tweak (m : List Byte) (gt : Word256 × Tweak128) {k : Nat} (h : k < blockCount m.length) :
    FlushedTweak gt.2 k ((List.range k).foldl (passStep m) gt).2 := by
  rw [passSteps_eq_flushBlocks m gt h]
  exact flushBlocks_tweak m gt k

/-- A pass is its full blocks, then the last block with the final flag. -/
theorem ubiPass_eq_last_block (g : Word256) (t : Tweak128) (m : List Byte) :
    ubiPass g t m =
      passStep m ((List.range (blockCount m.length - 1)).foldl (passStep m) (g, t)) (blockCount m.length - 1) := by
  have hN : blockCount m.length = blockCount m.length - 1 + 1 := (Nat.sub_add_cancel (blockCount_pos _)).symm
  rw [ubiPass, hN]
  simp [List.range_succ]

/-- The position after `n` more bytes. -/
theorem FlushedTweak.pos_add {t u : Tweak128} {k : Nat} (h : FlushedTweak t k u) (n : Nat) :
    getPos u + BitVec.ofNat 96 n = getPos t + BitVec.ofNat 96 (32 * k + n) := by
  rw [h.pos, BitVec.add_assoc, ← BitVec.ofNat_add]

/-- All blocks together are as long as the message. -/
theorem last_block_end (len : Nat) : 32 * (blockCount len - 1) + blockLen len (blockCount len - 1) = len := by
  rw [blockLen_last, Nat.add_sub_cancel' (blockCount_bounds len).1]

/-- Settles O20: the tweak before block j is that after j full blocks, and block j adds its own bytes. -/
theorem ubiPassBlockTweaks : Obligations.UbiPassBlockTweaks := by
  intro g t m j hj before tenc
  have hbefore : FlushedTweak t j before := passSteps_tweak m (g, t) hj
  have hpos : getPos tenc = getPos t + BitVec.ofNat 96 (32 * j + blockLen m.length j) :=
    (getPos_blockTweak _ _ _).trans (hbefore.pos_add _)
  refine ⟨fun hfull => ?_, fun hlast => ?_, (getFirst_blockTweak _ _ _).trans hbefore.first, ?_,
    (getType_blockTweak _ _ _).trans hbefore.type, (getReserved_blockTweak _ _ _).trans hbefore.reserved⟩
  · rw [hpos, blockLen_of_not_last hfull, Nat.mul_succ]
  · obtain rfl : j = blockCount m.length - 1 := by omega
    rw [hpos, last_block_end]
  · rw [getFinal_blockTweak, hbefore.final, Bool.or_comm]

/-- Settles O19: the last block completes the tweak that the full blocks left. -/
theorem ubiPassTweakFields : Obligations.UbiPassTweakFields := by
  intro g t m t'
  have hN := blockCount_pos m.length
  have hbefore := passSteps_tweak m (g, t) (show blockCount m.length - 1 < blockCount m.length by omega)
  have hlast : (blockCount m.length - 1 + 1 == blockCount m.length) = true := beq_iff_eq.2 (by omega)
  simp only [t', ubiPass_eq_last_block, passStep]
  refine ⟨?_, getFirst_ubiBlock .., ?_, (getType_ubiBlock ..).trans hbefore.type,
    (getReserved_ubiBlock ..).trans hbefore.reserved⟩
  · rw [getPos_ubiBlock, hbefore.pos_add, last_block_end]
  · rw [getFinal_ubiBlock, hlast, Bool.true_or]

/-! The empty message (41_ubi.md R88). -/

theorem advancePos_zero (t : Tweak128) : advancePos t 0 = t := by
  rw [advancePos, BitVec.add_zero, setPos_getPos]

theorem b2w_pad32_zero (b : List Byte) : b2w (pad32 b 0) = ⟨0, 0, 0, 0⟩ := by
  rw [pad32_congr 0 b [] fun j hj => absurd hj (Nat.not_lt_zero j)]
  decide

theorem xor256_zero (w : Word256) : xor256 w ⟨0, 0, 0, 0⟩ = w := by simp [xor256]

/-- A last block of no bytes is the zero block, whatever its bytes were. -/
theorem ubiBlock_empty (g : Word256) (t : Tweak128) (b : Bytes32) :
    ubiBlock g t b 0 true = (threefish g (setFinal t true) ⟨0, 0, 0, 0⟩, setFirst (setFinal t true) false) := by
  simp only [ubiBlock, b2w_pad32_zero, blockTweak, if_true, advancePos_zero, xor256_zero]

/-- Settles O21: the only block of the empty message and the last block of an empty buffer have no bytes. -/
theorem emptyPassIsOneZeroBlock : Obligations.EmptyPassIsOneZeroBlock := by
  have hpass (g : Word256) (t : Tweak128) : ubiPass g t [] = ubiBlock g t (pad32 [] 0) 0 true := rfl
  refine ⟨fun g t => (hpass g t).trans (ubiBlock_empty g t _), fun c hc => ?_⟩
  rw [hpass, ubiBlock_empty, finalBlock, hc]
  exact ubiBlock_empty c.cv c.ctw c.buf

end Sys2Proof.Machine
end

section
/-! PROOFS of 42_skein_context.md: the configuration pass (O22), the context commands (O23 to O26, O28, O32), the streamed
context and its digest (O29 to O31), the invariant "a READY context holds a message" (O57), and the cipher commands apart
from the context (O39). -/

namespace Sys2Proof.Machine

open Sys2Proof

/-! A new context (42_skein_context.md R91, R92, R100, R101). -/

/-- One block of Threefish-256 on closed words, evaluated by the kernel (R92). -/
theorem configPass_eq_iv : configPass = iv := by decide +kernel

/-- Settles O22: the configuration pass is one block, evaluated. -/
theorem configurationPassGivesIv : Obligations.ConfigurationPassGivesIv := ⟨rfl, configPass_eq_iv⟩

theorem mkTweak_msg : mkTweak msgType true false = ⟨0x0000000000000000#64, 0x7000000000000000#64⟩ := by decide

theorem mkTweak_out : mkTweak outType true true = ⟨0x0000000000000000#64, 0xFF00000000000000#64⟩ := by decide

/-- Settles O23: the new context with its tweak as a number. -/
theorem ctxInitCompletes : Obligations.CtxInitCompletes := by
  intro s
  rw [exec_ctxInit, newContext, mkTweak_msg]
  rfl

/-- Settles O24: both start the new context from one chaining value. -/
theorem ctxInitCfgLeavesWhatCtxInitLeaves : Obligations.CtxInitCfgLeavesWhatCtxInitLeaves := by
  intro s
  have heq : exec .ctxInitCfg s = exec .ctxInit s := by rw [exec_ctxInitCfg, configPass_eq_iv, exec_ctxInit]
  exact ⟨heq, _, heq.trans (exec_ctxInit s), rfl, rfl, rfl⟩

/-! The end of a message, the lifecycle, and the ciphers apart from the context (42_skein_context.md R97, R103). -/

/-- Settles O28: the last block and the output block, with the OUT tweak as a number. -/
theorem ctxFinalCompletes : Obligations.CtxFinalCompletes := by
  intro s hr c last g2
  have hout : outputBlock (finalBlock s.regs.ctx).1 = g2 := by rw [outputBlock, mkTweak_out]; rfl
  rw [exec_ctxFinal s hr, closedContext, hout]
  rfl

theorem exec_keeps_ctx (i : Instr) (s : State) (h : commandWrites i (.cv 0) = false) :
    ∃ t, exec i s = .next t ∧ t.regs.ctx = s.regs.ctx :=
  (exec_shape i s).imp fun _ ht => ⟨ht.1, execShape_ctx ht.2 h⟩

/-- Settles O32: each clause from the equation of its command. -/
theorem contextLifecycle : Obligations.ContextLifecycle := fun s =>
  ⟨⟨_, exec_ctxInit s, rfl, rfl⟩, ⟨_, exec_ctxInitCfg s, rfl, rfl⟩,
    fun n hn hr => ⟨_, exec_ctxUpdate n s hn hr, (absorb_cstate _ _).trans hr, rfl⟩,
    fun hr => ⟨_, exec_ctxFinal s hr, rfl, rfl⟩,
    fun n hn hr => exec_ctxUpdate_invalid n s hn hr, exec_ctxFinal_invalid s,
    exec_keeps_ctx .tfEnc s rfl, fun n f => exec_keeps_ctx (.ubiBlock n f) s rfl⟩

/-- Settles O39: with another context and another DIN each command takes the same case of its rule. -/
theorem cipherCommandsIgnoreContext : Obligations.CipherCommandsIgnoreContext := by
  rintro s c d i (rfl | ⟨n, f, rfl⟩)
  · exact ⟨_, _, exec_tfEnc s, exec_tfEnc _, rfl⟩
  · by_cases hn : 32 < n
    · exact ⟨_, _, exec_ubiBlock_illegal n f s hn, exec_ubiBlock_illegal n f _ hn, rfl⟩
    · exact ⟨_, _, exec_ubiBlock n f s (Nat.not_lt.1 hn), exec_ubiBlock n f _ (Nat.not_lt.1 hn), rfl⟩

/-! CTX_UPDATE (42_skein_context.md R98, R102). -/

theorem bufAppend_nil (b : Bytes32) (count : Nat) : bufAppend b count [] = b := by
  ext k hk : 1
  rw [bufAppend_get _ _ _ k hk, if_neg (by simp)]

/-- Bytes that fit follow the buffered ones, also when there are none. -/
theorem absorb_of_fits (c : Context) (d : List Byte) (h : c.bcnt.val + d.length ≤ 32) :
    absorb c d =
      { c with buf := bufAppend c.buf c.bcnt.val d, bcnt := ⟨c.bcnt.val + d.length, Nat.lt_succ_of_le h⟩ } := by
  by_cases h0 : d.length = 0
  · obtain rfl := List.eq_nil_of_length_eq_zero h0
    rw [absorb_nil, bufAppend_nil]
    rfl
  · exact absorb_small c d h0 h

/-- Settles O25: the bytes of DIN fit, and each byte of the buffer is one of `bufAppend`. -/
theorem ctxUpdateBuffersBytes : Obligations.CtxUpdateBuffersBytes := by
  intro s n hn hr hfit
  have hlen := dinBytes_length s.regs.din n
  have hget (j : Fin 32) := bufAppend_get s.regs.ctx.buf s.regs.ctx.bcnt.val (dinBytes s.regs.din n) j.val j.isLt
  refine ⟨_, ⟨s.regs.ctx.bcnt.val + n, Nat.lt_succ_of_le hfit⟩, rfl, fun j i hi hj => (hget j).trans ?_,
    fun j hj => (hget j).trans (if_neg (by omega)), ?_⟩
  · rw [if_pos (by omega), hj, Nat.add_sub_cancel_left]
    exact dinBytes_getD _ _ _ hi
  · rw [exec_ctxUpdate n s hn hr, absorb_of_fits _ _ (by rwa [hlen])]
    simp only [hlen]
    rfl

theorem pendingBytes_getD_buffered (c : Context) (d : List Byte) (j : Fin 32) (h : j.val < c.bcnt.val) :
    (pendingBytes c d).getD j.val 0 = c.buf[j] := by
  rw [pendingBytes, List.getD_append _ _ _ _ (by simp; omega)]
  simp [List.getD_eq_getElem?_getD, h]

theorem pendingBytes_getD_new (c : Context) (d : List Byte) (i : Nat) :
    (pendingBytes c d).getD (c.bcnt.val + i) 0 = d.getD i 0 := by
  have hlen : (c.buf.toList.take c.bcnt.val).length = c.bcnt.val := by simp; omega
  rw [pendingBytes, List.getD_append_right _ _ _ _ (by omega), hlen, Nat.add_sub_cancel_left]

/-- A flush of one block (R102). -/
theorem absorbFlush_one_block (c : Context) (d : List Byte) (hlo : 32 < c.bcnt.val + d.length)
    (hhi : c.bcnt.val + d.length ≤ 64) :
    absorbFlush c d =
      { c with
        cv := (ubiBlock c.cv c.ctw (pad32 (pendingBytes c d) 32) 32 false).1
        ctw := (ubiBlock c.cv c.ctw (pad32 (pendingBytes c d) 32) 32 false).2
        buf := pad32 ((pendingBytes c d).drop 32) (c.bcnt.val + d.length - 32)
        bcnt := ⟨c.bcnt.val + d.length - 32, by omega⟩ } := by
  have hone : flushCount (c.bcnt.val + d.length) = 1 := by unfold flushCount; omega
  simp only [absorbFlush, hone]
  rfl

/-- Settles O26: at most 40 bytes are pending, so one block is flushed; it and the new buffer are pending bytes. -/
theorem ctxUpdateFlushesOneBlock : Obligations.CtxUpdateFlushesOneBlock := by
  intro s n hn hr hfull
  have hlen := dinBytes_length s.regs.din n
  have hbcnt := s.regs.ctx.bcnt.isLt
  have hnew (i : Nat) (hi : i < n) :
      (pendingBytes s.regs.ctx (dinBytes s.regs.din n)).getD (s.regs.ctx.bcnt.val + i) 0 =
      s.regs.din.extractLsb' (8 * i) 8 :=
    (pendingBytes_getD_new _ _ i).trans (dinBytes_getD _ _ _ hi)
  refine ⟨pad32 (pendingBytes s.regs.ctx (dinBytes s.regs.din n)) 32,
    pad32 ((pendingBytes s.regs.ctx (dinBytes s.regs.din n)).drop 32) (s.regs.ctx.bcnt.val + n - 32),
    ⟨s.regs.ctx.bcnt.val + n - 32, by omega⟩,
    fun j => (pad32_get _ _ j.val j.isLt).trans ((if_pos j.isLt).trans ?_), rfl,
    fun j => (pad32_get _ _ j.val j.isLt).trans (ite_congr rfl (fun hj => ?_) fun _ => rfl), ?_⟩
  · split
    · exact pendingBytes_getD_buffered _ _ j ‹_›
    · have hbyte := hnew (j.val - s.regs.ctx.bcnt.val) (by omega)
      rwa [Nat.add_sub_cancel' (Nat.not_lt.1 ‹_›)] at hbyte
  · have hbyte := hnew (32 - s.regs.ctx.bcnt.val + j.val) (by dsimp only at hj; omega)
    rw [← Nat.add_assoc, Nat.add_sub_cancel' (Nat.lt_succ_iff.1 hbcnt)] at hbyte
    simpa using hbyte
  · rw [exec_ctxUpdate n s hn hr, absorb_flush _ _ (by omega), absorbFlush_one_block _ _ (by omega) (by omega)]
    simp only [hlen]
    rfl

/-! The blocks of a message and of its parts (42_skein_context.md R98, R99). -/

theorem flushBlocks_add (bytes : List Byte) (gt : Word256 × Tweak128) (k l : Nat) :
    (List.range (k + l)).foldl (flushBlock bytes) gt =
      (List.range l).foldl (flushBlock (bytes.drop (32 * k))) ((List.range k).foldl (flushBlock bytes) gt) := by
  have hshift (u : Word256 × Tweak128) (j : Nat) : flushBlock bytes u (k + j) = flushBlock (bytes.drop (32 * k)) u j := by
    simp only [flushBlock, List.drop_drop, Nat.mul_add]
  simp only [List.range_add, List.foldl_append, List.foldl_map, hshift]

/-- The full blocks of a message are those of every longer one. -/
theorem flushBlocks_append (m d : List Byte) (gt : Word256 × Tweak128) {k : Nat} (h : 32 * k ≤ m.length) :
    (List.range k).foldl (flushBlock (m ++ d)) gt = (List.range k).foldl (flushBlock m) gt := by
  refine List.foldl_ext _ _ _ fun u j hj => ?_
  have hj := List.mem_range.1 hj
  have hpad : pad32 ((m ++ d).drop (32 * j)) 32 = pad32 (m.drop (32 * j)) 32 := pad32_congr _ _ _ fun i hi => by
    rw [List.drop_append_of_le_length (by omega), List.getD_append _ _ _ _ (by simp; omega)]
  rw [flushBlock, flushBlock, hpad]

theorem flushCount_le (len : Nat) : 32 * flushCount len ≤ len := by unfold flushCount; omega

/-- Blocks flushed early are not flushed again. -/
theorem flushCount_add (len n : Nat) :
    flushCount (len + n) = flushCount len + flushCount (len - 32 * flushCount len + n) := by unfold flushCount; omega

/-! `absorb` in one form, and its composition (42_skein_context.md R99). -/

theorem bufAppend_eq_pad32 (c : Context) (d : List Byte) (htail : ∀ j : Fin 32, c.bcnt.val ≤ j.val → c.buf[j] = 0) :
    bufAppend c.buf c.bcnt.val d = pad32 (pendingBytes c d) (c.bcnt.val + d.length) := by
  ext k hk : 1
  rw [bufAppend_get _ _ _ k hk, pad32_get _ _ k hk]
  by_cases hold : k < c.bcnt.val
  · rw [if_neg (by omega), if_pos (by omega)]
    exact (pendingBytes_getD_buffered c d ⟨k, hk⟩ hold).symm
  obtain ⟨i, rfl⟩ := Nat.exists_eq_add_of_le (Nat.not_lt.1 hold)
  by_cases hnew : i < d.length
  · rw [if_pos (by omega), if_pos (by omega), pendingBytes_getD_new, Nat.add_sub_cancel_left]
  · rw [if_neg (by omega), if_neg (by omega)]
    exact htail ⟨_, hk⟩ (Nat.le_add_right _ _)

/-- When the buffer is zero past BCNT, bytes that fit are a flush of no block. -/
theorem absorb_eq_absorbFlush (c : Context) (d : List Byte) (htail : ∀ j : Fin 32, c.bcnt.val ≤ j.val → c.buf[j] = 0) :
    absorb c d = absorbFlush c d := by
  by_cases hfit : c.bcnt.val + d.length ≤ 32
  · have hnone : flushCount (c.bcnt.val + d.length) = 0 := by unfold flushCount; omega
    simp only [absorb_of_fits c d hfit, bufAppend_eq_pad32 c d htail, absorbFlush, hnone]
    rfl
  · exact absorb_flush c d (Nat.not_le.1 hfit)

theorem contextAfter_tail_zero (m : List Byte) (j : Fin 32) (h : (contextAfter m).bcnt.val ≤ j.val) :
    (contextAfter m).buf[j] = 0 :=
  (pad32_get _ _ j.val j.isLt).trans (if_neg (Nat.not_lt.2 h))

theorem take_pad32 (b : List Byte) (h : b.length ≤ 32) : (pad32 b b.length).toList.take b.length = b := by
  refine List.ext_getElem (by simp [h]) fun i _ hi => ?_
  have hget := pad32_get b b.length i (by omega)
  rw [if_pos hi, List.getD_eq_getElem _ _ hi] at hget
  simpa using hget

/-- The bytes a context of `m` has not yet processed, with more to come. -/
theorem pendingBytes_contextAfter (m d : List Byte) :
    pendingBytes (contextAfter m) d = (m ++ d).drop (32 * flushCount m.length) := by
  have hlast : (m.drop (32 * flushCount m.length)).length ≤ 32 := by rw [List.length_drop]; unfold flushCount; omega
  have hbuf := take_pad32 _ hlast
  rw [List.length_drop] at hbuf
  rw [List.drop_append_of_le_length (flushCount_le _)]
  exact congrArg (· ++ d) hbuf

/-- The blocks a context of `m` flushes for `d` come after those it has flushed. -/
theorem flushCount_contextAfter (m d : List Byte) :
    flushCount (m ++ d).length = flushCount m.length + flushCount ((contextAfter m).bcnt.val + d.length) :=
  (congrArg flushCount List.length_append).trans (flushCount_add _ _)

/-- A context after `m` that absorbs `d` has flushed the blocks of `m ++ d`. -/
theorem flushBlocks_contextAfter (m d : List Byte) :
    (List.range (flushCount ((contextAfter m).bcnt.val + d.length))).foldl
        (flushBlock (pendingBytes (contextAfter m) d)) ((contextAfter m).cv, (contextAfter m).ctw) =
      (List.range (flushCount (m ++ d).length)).foldl (flushBlock (m ++ d)) (iv, mkTweak msgType true false) := by
  rw [flushCount_contextAfter, flushBlocks_add, flushBlocks_append _ _ _ (flushCount_le _),
    pendingBytes_contextAfter]
  rfl

theorem absorb_contextAfter (m d : List Byte) : absorb (contextAfter m) d = contextAfter (m ++ d) := by
  have hcount := flushCount_contextAfter m d
  have hrest : (contextAfter m).bcnt.val + d.length - 32 * flushCount ((contextAfter m).bcnt.val + d.length) =
      (m ++ d).length - 32 * flushCount (m ++ d).length := by
    have hle := flushCount_le m.length
    have hbcnt : (contextAfter m).bcnt.val = m.length - 32 * flushCount m.length := rfl
    rw [hcount, List.length_append]
    omega
  have hpending : (pendingBytes (contextAfter m) d).drop (32 * flushCount ((contextAfter m).bcnt.val + d.length)) =
      (m ++ d).drop (32 * flushCount (m ++ d).length) := by
    rw [pendingBytes_contextAfter, List.drop_drop, hcount, Nat.mul_add]
  rw [absorb_eq_absorbFlush _ _ (contextAfter_tail_zero m)]
  simp only [absorbFlush, flushBlocks_contextAfter, hpending, hrest]
  rfl

theorem contextAfter_nil : contextAfter [] = newContext iv :=
  context_ext _ _ rfl rfl (fun k hk => (contextAfter_tail_zero [] ⟨k, hk⟩ (Nat.zero_le k)).trans
    (zero32_get ⟨k, hk⟩).symm) rfl rfl

/-- Absorbing chunk after chunk absorbs their concatenation. -/
theorem foldl_absorb_contextAfter (chunks : List (List Byte)) (m : List Byte) :
    chunks.foldl absorb (contextAfter m) = contextAfter (m ++ chunks.flatten) := by
  induction chunks generalizing m with
  | nil => rw [List.flatten_nil, List.append_nil]; rfl
  | cons d chunks ih => rw [List.foldl_cons, absorb_contextAfter, ih, List.flatten_cons, List.append_assoc]

/-- Settles O29: the new context is that of the empty message. -/
theorem streamingDependsOnConcatenationOnly : Obligations.StreamingDependsOnConcatenationOnly := fun chunks => by
  rw [← contextAfter_nil, foldl_absorb_contextAfter, List.nil_append]

/-! The fields of the streamed context (42_skein_context.md R99). -/

theorem flushCount_eq_blockCount (len : Nat) : flushCount len = blockCount len - 1 := by
  unfold flushCount blockCount
  omega

/-- The chaining value and the tweak after blocks 0 to j-1 of the message `m`. -/
def chained (m : List Byte) (j : Nat) : Word256 × Tweak128 :=
  (List.range j).foldl (flushBlock m) (iv, mkTweak msgType true false)

theorem chained_succ (m : List Byte) {j : Nat} (h : j + 1 < blockCount m.length) :
    chained m (j + 1) = ubiBlock (chained m j).1 (chained m j).2 (pad32 (blockBytes m j) 32) 32 false := by
  have hlast : (j + 1 == blockCount m.length) = false := beq_false_of_ne h.ne
  rw [chained, List.range_succ, List.foldl_append, List.foldl_cons, List.foldl_nil, ← passStep_eq_flushBlock m _ h,
    passStep, blockLen_of_not_last h, hlast]
  rfl

/-- Settles O30: the chaining values by block, and the tweak from that of full blocks. -/
theorem streamedContextFields : Obligations.StreamedContextFields := by
  intro m hm k c
  have hpos : 0 < m.length := List.length_pos_iff.2 hm
  have hk : k = flushCount m.length := rfl
  have hcount := flushCount_eq_blockCount m.length
  have htweak : FlushedTweak (mkTweak msgType true false) k c.ctw :=
    flushBlocks_tweak m (iv, mkTweak msgType true false) k
  have hblock (j : Nat) (hj : j < k) : j + 1 < blockCount m.length := by omega
  refine ⟨⟨fun j => (chained m j).1, fun j => (chained m j).2, rfl, mkTweak_msg, fun j hj => ⟨?_, ?_⟩, rfl, rfl⟩,
    rfl, rfl, ?_, Nat.lt_succ_iff.1 c.bcnt.isLt, fun j => ?_, ?_, ?_, ?_, ?_⟩
  · rw [blockBytes_length (Nat.lt_of_succ_lt (hblock j hj)), blockLen_of_not_last (hblock j hj)]
  · exact chained_succ m (hblock j hj)
  · show 1 ≤ m.length - 32 * ((m.length - 1) / 32)
    omega
  · refine (pad32_get _ _ j.val j.isLt).trans (if_congr Iff.rfl ?_ rfl)
    simp [hk]
  · simp [htweak.pos]
  · simp [htweak.type]
  · simp [htweak.final]
  · simp [htweak.first]

/-! The digest (42_skein_context.md R93 to R96, R103). -/

/-- The last block of a message is all that is left of it. -/
theorem blockBytes_last (m : List Byte) :
    blockBytes m (blockCount m.length - 1) = m.drop (32 * (blockCount m.length - 1)) := by
  rw [blockBytes, blockLen_last, List.take_of_length_le List.length_drop.le]

/-- The last block of a streamed message completes the message pass. -/
theorem finalBlock_contextAfter (m : List Byte) :
    finalBlock (contextAfter m) = ubiPass iv (mkTweak msgType true false) m := by
  have hN := blockCount_pos m.length
  have hlast : (blockCount m.length - 1 + 1 == blockCount m.length) = true := beq_iff_eq.2 (by omega)
  rw [ubiPass_eq_last_block, passSteps_eq_flushBlocks _ _ (by omega), passStep, hlast, blockLen_last, blockBytes_last]
  simp only [finalBlock, contextAfter, flushCount_eq_blockCount]

theorem outputBlock_eq_outputPass (g : Word256) : outputBlock g = outputPass g := by
  have hzero : pad32 (List.replicate 8 0) 8 = zero32 := by decide
  have hpass : outputPass g = (ubiBlock g (mkTweak outType true true) (pad32 (List.replicate 8 0) 8) 8 true).1 := rfl
  rw [hpass, hzero, outputBlock]

/-- Settles O31: the last block ends the message pass, and the output block is the output pass. -/
theorem streamingDigestEqualsOneShot : Obligations.StreamingDigestEqualsOneShot := by
  intro s m hm
  have hr : s.regs.ctx.cstate = .ready := hm ▸ rfl
  refine ⟨_, exec_ctxFinal s hr, ?_⟩
  rw [finish_res, hm, finalBlock_contextAfter, outputBlock_eq_outputPass]
  rfl

/-! A READY context holds a message (42_skein_context.md R98, R99). -/

theorem execShape_holdsMessage {i : Instr} {s t : State} (hs : ExecShape i s t) (h : HoldsMessage s.regs.ctx) :
    HoldsMessage t.regs.ctx := by
  cases hs with
  | init cv hv =>
    obtain rfl : cv = iv := hv.elim id (·.trans configPass_eq_iv)
    exact fun _ => ⟨[], contextAfter_nil.symm⟩
  | update c n _ hr hc =>
    obtain ⟨m, hm⟩ := h hr
    exact fun _ => ⟨m ++ dinBytes s.regs.din n, by rw [finish_ctx, hc, hm, absorb_contextAfter]⟩
  | final r c _ _ hc => exact fun hready => by rw [finish_ctx, hc] at hready; cases hready
  | _ => exact h

/-- `P` holds of the context, and of the one the command in flight leaves. -/
def ContextsSatisfy (P : Context → Prop) (s : State) : Prop :=
  P s.regs.ctx ∧ ∀ p, s.engine = some p → P p.result.ctx

section Contexts

variable {P : Context → Prop}

theorem contextsSatisfy_engineStep {s : State} (h : ContextsSatisfy P s) : ContextsSatisfy P (engineStep s) := by
  obtain ⟨hctx, hresult⟩ := h
  cases he : s.engine with
  | none => rw [engineStep_idle s he]; exact ⟨hctx, hresult⟩
  | some p =>
    by_cases hp : p.cyclesLeft ≤ 1
    · rw [engineStep_last s p he hp]
      exact ⟨hresult p he, nofun⟩
    · rw [engineStep_running s p he (Nat.not_le.1 hp)]
      refine ⟨hctx, ?_⟩
      rintro _ ⟨⟩
      exact hresult p he

variable (hreset : P Context.reset)
  (hexec : ∀ {i : Instr} {s t : State}, ExecShape i s t → P s.regs.ctx → P t.regs.ctx)

include hexec

theorem runWord_context {w : Word64} {s t : State} (ht : runWord w s = .next t) (h : P s.regs.ctx) : P t.regs.ctx := by
  rcases runWord_cases w s with ⟨e, -, hw⟩ | ⟨i, u, -, hw, hs⟩
  · rw [← next_injective (hw.symm.trans ht)]
    exact h
  · rw [← next_injective (hw.symm.trans ht)]
    exact hexec hs h

include hreset

theorem eventShape_contextsSatisfy {s t : State} (hs : EventShape s t) (h : ContextsSatisfy P s) :
    ContextsSatisfy P t := by
  obtain ⟨hctx, hresult⟩ := h
  cases hs with
  | write g hg => exact ⟨hg ▸ hctx, hresult⟩
  | command w u hu =>
    refine ⟨hctx, ?_⟩
    rintro _ ⟨⟩
    exact runWord_context hexec hu hctx
  | wait => exact ⟨waitStep_regs s ▸ hctx, waitStep_engine s ▸ hresult⟩
  | reset => exact ⟨hreset, nofun⟩
  | _ => exact ⟨hctx, hresult⟩

/-- A property of contexts that holds at reset and that every command keeps is kept by every step. -/
theorem step_contextsSatisfy {s t : State} (h : ContextsSatisfy P s) (hstep : step s = .next t) :
    ContextsSatisfy P t := by
  have hengine := contextsSatisfy_engineStep h
  cases hscript : s.script with
  | nil => rwa [← next_injective ((step_of_nil s hscript).symm.trans hstep)]
  | cons e rest =>
    have hevent := eventStep_shape ((step_of_cons s e rest hscript).symm.trans hstep)
    exact eventShape_contextsSatisfy hreset hexec hevent hengine

end Contexts

/-- Settles O57: it holds at reset, where no context is READY, and every command keeps it. -/
theorem stepKeepsReadyContextAMessage : Obligations.StepKeepsReadyContextAMessage := fun _ _ =>
  step_contextsSatisfy (P := HoldsMessage) nofun execShape_holdsMessage

end Sys2Proof.Machine
end

section
/-! PROOFS of 60_exceptions.md: illegal words (O33), the order of the two checks (O34), a command completes or fails
without effect (O35), and ERR is not sticky (O36). -/

namespace Sys2Proof.Machine

open Sys2Proof

/-! Completion or failure (60_exceptions.md R104, R106, R111). -/

/-- A next state without an error, or the state before with one of the two errors. -/
theorem execShape_err {i : Instr} {s t : State} (hs : ExecShape i s t) :
    t.regs.err = .noError ∨ t = raiseError .illegalCmd s ∨ t = raiseError .invalidState s := by
  cases hs with
  | error e he _ =>
    cases e with
    | noError => exact absurd rfl he
    | illegalCmd => exact .inr (.inl rfl)
    | invalidState => exact .inr (.inr rfl)
  | _ => exact .inl rfl

/-- Settles O35: `raiseError` is the only way to fail, and it writes nothing but ERR. -/
theorem commandCompletesOrFailsWithoutEffect : Obligations.CommandCompletesOrFailsWithoutEffect := by
  intro i s
  obtain ⟨t, ht, hs⟩ := exec_shape i s
  refine ⟨t, ht, ?_⟩
  rcases execShape_err hs with hnone | rfl | rfl
  · exact .inl hnone
  · exact .inr ⟨.inl rfl, rfl⟩
  · exact .inr ⟨.inr rfl, rfl⟩

/-- Settles O36: no command's rule reads ERR, and each completion and each error overwrites it. -/
theorem errorIsNotSticky : Obligations.ErrorIsNotSticky := fun i s e => by cases i <;> rfl

/-! The context state, tested on a well-formed command only (60_exceptions.md R108, R109). -/

/-- The commands that ask for a READY context: CTX_UPDATE and CTX_FINAL, by opcode (R108). -/
def NeedsReady (i : Instr) : Prop := i.opcode = 0x12#8 ∨ i.opcode = 0x13#8

theorem exec_of_not_ready {i : Instr} {s : State} (hwf : i.wf = true) (hi : NeedsReady i)
    (hc : s.regs.ctx.cstate ≠ .ready) : exec i s = .next (raiseError .invalidState s) := by
  cases i with
  | ctxUpdate n => exact exec_ctxUpdate_invalid n s (of_decide_eq_true hwf) hc
  | ctxFinal => exact exec_ctxFinal_invalid s hc
  | _ => exact absurd hi (by simp [NeedsReady, Instr.opcode])

theorem exec_completes {i : Instr} {s : State} (hwf : i.wf = true)
    (h : NeedsReady i → s.regs.ctx.cstate = .ready) : ∃ t, exec i s = .next t ∧ t.regs.err = .noError := by
  cases i with
  | tfEnc => exact ⟨_, exec_tfEnc s, finish_err _ _⟩
  | ubiBlock n f => exact ⟨_, exec_ubiBlock n f s (of_decide_eq_true hwf), finish_err _ _⟩
  | ctxInit => exact ⟨_, exec_ctxInit s, finish_err _ _⟩
  | ctxInitCfg => exact ⟨_, exec_ctxInitCfg s, finish_err _ _⟩
  | ctxUpdate n => exact ⟨_, exec_ctxUpdate n s (of_decide_eq_true hwf) (h (.inl rfl)), finish_err _ _⟩
  | ctxFinal => exact ⟨_, exec_ctxFinal s (h (.inr rfl)), finish_err _ _⟩

/-! Legality, tested first (60_exceptions.md R107, R109). -/

theorem runWord_of_illegal {w : Word64} (s : State) (h : legal w = false) :
    runWord w s = .next (raiseError .illegalCmd s) := by
  obtain ⟨e, he⟩ := decode_error_of_illegal h
  exact runWord_of_error s he

/-- A legal word runs a well-formed command; whether it needs a READY context is read off its OP. -/
theorem runWord_of_legal {w : Word64} (s : State) (h : legal w = true) :
    ∃ i, decode w = .ok i ∧ runWord w s = exec i s ∧ i.wf = true ∧
      (NeedsReady i ↔ w.toNat % 2 ^ 8 = 0x12 ∨ w.toNat % 2 ^ 8 = 0x13) := by
  obtain ⟨i, hi⟩ := decode_of_legal h
  have hf := fieldsOf_of_decode hi
  refine ⟨i, hi, runWord_of_ok s hi, hf.wf, ?_⟩
  rw [NeedsReady, ← hf.op]
  exact or_congr (opField_eq_iff w 0x12#8) (opField_eq_iff w 0x13#8)

/-- Settles O34: `decode` rejects every illegal word, and gives only well-formed commands, whose rules test nothing but
the context state. -/
theorem legalityIsTestedBeforeContextState : Obligations.LegalityIsTestedBeforeContextState := by
  refine fun w s => ⟨runWord_of_illegal s, fun hw hop hc => ?_, fun hw hready => ?_⟩
  · obtain ⟨i, -, hrun, hwf, hneeds⟩ := runWord_of_legal s hw
    exact hrun.trans (exec_of_not_ready hwf (hneeds.2 hop) hc)
  · obtain ⟨i, hi, hrun, hwf, hneeds⟩ := runWord_of_legal s hw
    obtain ⟨t, ht, herr⟩ := exec_completes (s := s) hwf fun hn => not_not.1 fun hc => hready ⟨hneeds.1 hn, hc⟩
    exact ⟨i, t, hi, hrun, ht, herr⟩

theorem runWord_of_legal_err {w : Word64} (s : State) (h : legal w = true) :
    ∃ t, runWord w s = .next t ∧ t.regs.err ≠ .illegalCmd := by
  obtain ⟨-, hinvalid, hcompletes⟩ := legalityIsTestedBeforeContextState w s
  by_cases hc : (w.toNat % 2 ^ 8 = 0x12 ∨ w.toNat % 2 ^ 8 = 0x13) ∧ s.regs.ctx.cstate ≠ .ready
  · exact ⟨_, hinvalid h hc.1 hc.2, nofun⟩
  · obtain ⟨i, t, -, hrun, ht, herr⟩ := hcompletes h hc
    exact ⟨t, hrun.trans ht, by simp [herr]⟩

/-- Settles O33: R107's four grounds are the complement of R64's legal words. -/
theorem illegalWordsRaiseIllegalCommand : Obligations.IllegalWordsRaiseIllegalCommand := by
  intro w s op len illegal
  have hlegal : legal w = true ↔ ¬ illegal := by
    refine (Iff.intro decode_of_legal fun ⟨_, h⟩ => legal_of_decode h).trans
      ((decodeAcceptsExactlyLegalWords w).trans ?_)
    dsimp only [illegal, op, len]
    omega
  exact ⟨fun h => runWord_of_illegal s (Bool.eq_false_iff.2 fun hl => hlegal.1 hl h),
    fun h => runWord_of_legal_err s (hlegal.2 h)⟩

end Sys2Proof.Machine
end

section
/-! PROOFS of 70_reset_and_hazards.md: the end of the busy hazard (O51), accesses in it (O50), and reset (O53, O54). -/

namespace Sys2Proof.Machine

open Sys2Proof

/-! The end of the hazard (70_reset_and_hazards.md R124). -/

theorem busy_eq_false_iff (s : State) : busy s = false ↔ s.engine = none :=
  Option.isSome_eq_false_iff.trans Option.isNone_iff_eq_none

/-- `t` has one more entry than `log` in its record, a STATUS read with BUSY = 0, and is idle. -/
def RecordsIdleStatusRead (log : List ReadEntry) (t : State) : Prop :=
  ∃ e, t.readLog = e :: log ∧ e.offset = 0x08#8 ∧ e.value.getLsbD 0 = false ∧ t.engine = none

theorem not_recordsIdleStatusRead {log : List ReadEntry} {t : State} (h : t.readLog = log) :
    ¬ RecordsIdleStatusRead log t := by
  rintro ⟨e, he, -⟩
  exact List.cons_ne_self e log (he.symm.trans h)

theorem recordsIdleStatusRead_readStep_iff (off : BitVec 8) (s : State) :
    RecordsIdleStatusRead s.readLog (readStep off s) ↔ off = offsetOf .status ∧ busy s = false := by
  constructor
  · rintro ⟨e, he, hoff, -, hidle⟩
    obtain rfl := (List.cons.inj he).1
    exact ⟨hoff, busy_of_engine_none hidle⟩
  · rintro ⟨rfl, hb⟩
    refine ⟨_, rfl, rfl, ?_, (busy_eq_false_iff s).1 hb⟩
    rw [readValue_status, readReg, statusWord_busy, hb]

theorem readStep_unconfirmed_iff (off : BitVec 8) {s : State} (hu : s.unconfirmed = true) :
    (readStep off s).unconfirmed = false ↔ RecordsIdleStatusRead s.readLog (readStep off s) := by
  rw [recordsIdleStatusRead_readStep_iff]
  simp [readStep, hu]

theorem waitStep_unconfirmed_iff {s : State} (hu : s.unconfirmed = true) :
    (waitStep s).unconfirmed = false ↔ RecordsIdleStatusRead s.readLog (waitStep s) := by
  simpa [RecordsIdleStatusRead, waitStep_unconfirmed] using readStep_unconfirmed_iff (offsetOf .status) hu

theorem eventStep_read_next {a b : Nat} {s t : State} (h : eventStep (.read a b) s = .next t) :
    ∃ off, readStep off s = t := by
  by_cases hw : InWindow s.basePage a
  · rw [eventStep_read_inside rfl hw] at h
    split_ifs at h
    exact ⟨_, next_injective h⟩
  · cases (eventStep_read_outside rfl hw b).symm.trans h

/-- A write, of CMD or another register, reads nothing and leaves the hazard open. -/
theorem writeStep_keeps_unconfirmed {off : BitVec 8} {v : Word64} {s t : State} (hu : s.unconfirmed = true)
    (h : writeStep off v s = .next t) : t.unconfirmed = true ∧ t.readLog = s.readLog := by
  unfold writeStep at h
  split_ifs at h
  split at h
  · rw [← next_injective h]; exact ⟨hu, rfl⟩
  · obtain ⟨u, -, hw⟩ := writeCmd_cases v s
    rw [← next_injective (hw.symm.trans h)]; exact ⟨rfl, rfl⟩
  · rw [← next_injective h]; exact ⟨hu, rfl⟩

theorem eventStep_write_next {a b : Nat} {v : Word64} {s t : State} (h : eventStep (.write a b v) s = .next t) :
    ∃ off, writeStep off v s = .next t := by
  by_cases hw : InWindow s.basePage a
  · rw [eventStep_write_inside rfl hw] at h
    split_ifs at h
    exact ⟨_, h⟩
  · cases (eventStep_write_outside rfl hw b v).symm.trans h

/-- Where nothing is read, and the host has the end still to read, the hazard goes on. -/
theorem unconfirmed_iff_of_no_read {log : List ReadEntry} {t : State} (hu : t.unconfirmed = true)
    (hlog : t.readLog = log) : t.unconfirmed = false ↔ RecordsIdleStatusRead log t :=
  iff_of_false (by simp [hu]) (not_recordsIdleStatusRead hlog)

/-- What ends the hazard, by the event of the cycle. -/
theorem eventStep_unconfirmed_iff {e : Event} {s t : State} (hu : s.unconfirmed = true) (h : eventStep e s = .next t) :
    t.unconfirmed = false ↔ e = .reset ∨ RecordsIdleStatusRead s.readLog t := by
  cases e with
  | read a b =>
    obtain ⟨off, rfl⟩ := eventStep_read_next h
    simpa using readStep_unconfirmed_iff off hu
  | write a b v =>
    obtain ⟨off, hw⟩ := eventStep_write_next h
    obtain ⟨ht, hlog⟩ := writeStep_keeps_unconfirmed hu hw
    simpa using unconfirmed_iff_of_no_read ht hlog
  | wait =>
    rw [← next_injective h]
    simpa using waitStep_unconfirmed_iff hu
  | idle =>
    rw [← next_injective h]
    simpa using unconfirmed_iff_of_no_read hu rfl
  | reset =>
    rw [← next_injective h]
    simp

theorem step_unconfirmed_iff {s t : State} (hu : s.unconfirmed = true) (h : step s = .next t) :
    t.unconfirmed = false ↔ s.script.head? = some .reset ∨ RecordsIdleStatusRead s.readLog t := by
  have huTurn : (engineStep s).unconfirmed = true := (engineStep_unconfirmed s).trans hu
  cases hs : s.script with
  | nil =>
    rw [← next_injective ((step_of_nil s hs).symm.trans h)]
    simpa using unconfirmed_iff_of_no_read huTurn (engineStep_readLog s)
  | cons e rest =>
    have hevent := eventStep_unconfirmed_iff (s := hostTurn s rest) huTurn ((step_eq_eventStep hs).symm.trans h)
    simpa [hostTurn] using hevent

/-- A STATUS read in a cycle with BUSY = 0: the host has read the end of the command. -/
theorem step_status_read_of_not_busy {s t : State} (hs : s.script.head? = some (.read (256 * s.basePage + 0x08) 8))
    (hb : busy (engineStep s) = false) (h : step s = .next t) : t.unconfirmed = false ∧ t.early = s.early := by
  have hread := readStep_reg_of_not_busy .status (hostTurn s s.script.tail) hb (.inr (.inr (.inl rfl)))
  have hstep := (step_of_head hs).trans (eventStep_read_reg_at (hostTurn_basePage s _) .status)
  rw [← next_injective (hstep.symm.trans h), hread]
  simp [hostTurn]

/-- Settles O51: by the event of the cycle, after the engine's part; a plain STATUS read ends the hazard once the engine's
part has left BUSY = 0. -/
theorem hazardLastsUntilIdleStatusRead : Obligations.HazardLastsUntilIdleStatusRead := by
  refine fun s t hu h => ⟨step_unconfirmed_iff hu h, fun hs hlast => step_status_read_of_not_busy hs ?_ h⟩
  rw [Bool.eq_false_iff, Ne, busy_engineStep_iff]
  rintro ⟨p, hp, hrunning⟩
  exact absurd (hlast p hp) (Nat.not_le.2 hrunning)

/-! Accesses in the hazard (70_reset_and_hazards.md R124, R131; 93_implementation_defined.md U1, U2, U8). -/

/-- A read that the hazard spoils draws a free value. -/
theorem readStep_of_hazard {off : BitVec 8} {s : State} (hz : inHazard s = true) (hd : definedInHazard off = false) :
    readStep off s = { s with
      readLog := ⟨off, Config.busyRead s.draws⟩ :: s.readLog
      draws := s.draws + 1
      early := s.early || (s.unconfirmed && decide (s.engine = none)) } := by
  have hstatus : off ≠ offsetOf .status := by rintro rfl; cases hd
  have hidle : (!busy s) = decide (s.engine = none) := by
    rw [Bool.eq_iff_iff, Bool.not_eq_true', busy_eq_false_iff, decide_eq_true_iff]
  simp [readStep, readValue, hz, hd, hstatus, hidle]

theorem readValue_of_defined_reg (s : State) {r : Reg} (hr : r = .status ∨ r = .id) :
    readValue s (offsetOf r) = readReg s r := by
  rcases hr with rfl | rfl
  · exact readValue_status s
  · exact readValue_id s

theorem eventStep_read_reserved {off : Nat} (s : State) (ho : ReservedOffset off) :
    eventStep (.read (256 * s.basePage + off) 8) s = .next (readStep (BitVec.ofNat 8 off) s) := by
  rw [eventStep_read_inside rfl (ho.inWindow _), if_pos ⟨rfl, ho.aligned _⟩, Nat.add_sub_cancel_left]

theorem eventStep_write_reserved {off : Nat} (s : State) (ho : ReservedOffset off) (v : Word64) :
    eventStep (.write (256 * s.basePage + off) 8 v) s = writeStep (BitVec.ofNat 8 off) v s := by
  rw [eventStep_write_inside rfl (ho.inWindow _), if_pos ⟨rfl, ho.aligned _⟩, Nat.add_sub_cancel_left]

theorem inHazard_iff (s : State) :
    inHazard s = true ↔ s.engine ≠ none ∨ (s.strictHazard = true ∧ s.unconfirmed = true) := by
  simp [inHazard, busy, Option.isSome_iff_ne_none]

/-- Settles O50: a read by whether the hazard spoils it, and every write by the hazard's fault. -/
theorem busyHazardAccesses : Obligations.BusyHazardAccesses := by
  intro s h early'
  have hz := (inHazard_iff s).2 h
  refine ⟨fun r hr => ?_, ?_, fun r hstatus hid => ?_, fun r v => ?_, fun off v ho => ⟨?_, ?_⟩⟩
  · refine ⟨_, eventStep_read_reg s r, ?_, rfl, rfl, ?_⟩
    · rw [readStep_readLog, readValue_of_defined_reg s hr]
    · simp [(definedInHazard_reg r).2 hr]
  · rw [readReg, statusWord_busy]
    exact Option.isSome_iff_ne_none
  · have hd := Bool.eq_false_iff.2 (mt (definedInHazard_reg r).1 (not_or.2 ⟨hstatus, hid⟩))
    rw [eventStep_read_reg, readStep_of_hazard hz hd]
  · exact (eventStep_write_reg s r v).trans (writeStep_of_hazard _ v s hz)
  · have hd := definedInHazard_reserved (ReservedOffset.regAt_none ho)
    rw [eventStep_read_reserved s ho, readStep_of_hazard hz hd]
  · exact (eventStep_write_reserved s ho v).trans (writeStep_of_hazard _ v s hz)

/-! Reset (70_reset_and_hazards.md R120, R121). -/

/-- Every register but ID is made of zeros, STATUS of zero fields. -/
theorem readReg_reset {r : Reg} (h : r ≠ .id) : readReg State.reset r = 0 := by
  cases r with
  | id => exact absurd rfl h
  | cmd | status | din => rfl
  | key i | twk i | blk i | res i | cv i | ctw i | cbuf i => fin_cases i <;> rfl

/-- Settles O53: the reset column of R18, read through the window. -/
theorem resetStateReadsZeroButId : Obligations.ResetStateReadsZeroButId :=
  ⟨fun _ => readReg_reset, rfl, rfl, rfl, rfl, rfl⟩

/-- Settles O54: the host's turn is a reset, whatever the engine's part of the cycle has left. -/
theorem resetAbandonsCommand : Obligations.ResetAbandonsCommand := fun _ _ hs =>
  ⟨_, step_eq_eventStep hs, rfl, rfl, rfl, rfl⟩

end Sys2Proof.Machine
end
